-- ==== Sys2Proof/Word.lean ====
section
/-! DEFINITION. The word types of the CHIP-8 CORE (spec 00_scope.md R5, R7): 8-bit bytes and 16-bit words, all unsigned. -/

namespace Sys2Proof

/-- An 8-bit value: a memory byte, a V register, a timer (R5 `VWIDTH`, `TWIDTH`). -/
abbrev Byte := BitVec 8

/-- A 16-bit value: an instruction word, `I`, `pc`, a stack slot (R5 `IWIDTH`, `PCWIDTH`). -/
abbrev Word := BitVec 16

/-- `zext_16` of a byte (R7). -/
def Byte.zext16 (b : Byte) : Word := b.setWidth 16

end Sys2Proof
end

