-- ==== Sys2Proof/Config.lean ====
section
/-! DEFINITION. The sizes the source fixes (spec 00_scope.md R5), its open parameters (R6; Machine/Decided.lean has
the values the spec decides for them), and the free random bytes (41_alu.md R151). -/

namespace Sys2Proof.Config

/-- `MEM_SIZE` (R5). -/
abbrev memSize : Nat := 0x1000

/-- `PROG_BASE` (R5): where a ROM is loaded and what `pc` is after reset. -/
abbrev progBase : Nat := 0x200

/-- `ROM_MAX` (R5): the largest ROM in bytes. -/
abbrev romMax : Nat := 0xE00

/-- `GLYPH_BYTES` (R5). -/
abbrev glyphBytes : Nat := 5

/-- `STACK_SLOTS` (R5). -/
abbrev stackSlots : Nat := 16

/-- `SPRITE_BIT_ORDER` (R6, 43_display.md R192): which bit of a sprite byte is column 0. -/
inductive SpriteBitOrder where
  | msbLeft
  | lsbLeft
  deriving DecidableEq, Repr

/-- `VF_DEST_ORDER` (R6, 41_alu.md R152): which of an instruction's two writes survives when both go to `VF`. -/
inductive VfDestOrder where
  | tableOrder
  | flagLast
  deriving DecidableEq, Repr

/-- The size of `FONT` (R5): sixteen glyphs of `GLYPH_BYTES` each. -/
abbrev fontSize : Nat := 80

/-- `FONT` (R6, 10_state.md R36): the bytes `Reset` puts into 0x000..0x04F, any 80 bytes. -/
abbrev Font := Vector Byte fontSize

/-- The open parameters the machine depends on. A machine has one setting for good; every state carries it (log 2, 3, 4),
so that a statement over all states holds for every setting, or names the one it assumes. -/
structure Params where
  font : Font
  spriteBitOrder : SpriteBitOrder
  vfDestOrder : VfDestOrder
  deriving DecidableEq, Repr

/-- The byte the random source supplies to the `n`th `Cxkk` (R151): a draw under no law. A free value (log 5): it has
no body, so a claim about it holds for every sequence of bytes. -/
opaque randByte : Nat → Byte

end Sys2Proof.Config
end

