-- ==== Sys2Proof/Syntax.lean ====
section
/-! DEFINITION. The instructions: one constructor per row of spec/opcode_table.json, in the table's order (spec
30_encoding.md R94), with the fields its format gives it (R91, R92). -/

namespace Sys2Proof

/-- The index of a V register, 0x0 to 0xF (10_state.md R21). -/
abbrev Reg := Fin 16

/-- `VF`, the flag register (10_state.md R22). -/
def vf : Reg := 0xF

/-- An instruction (R94). The `y` of `shrVx` and `shlVx` is carried and changes nothing (R99). -/
inductive Instr where
  | cls
  | ret
  | sys (nnn : BitVec 12)
  | jp (nnn : BitVec 12)
  | call (nnn : BitVec 12)
  | seVxKk (x : Reg) (kk : Byte)
  | sneVxKk (x : Reg) (kk : Byte)
  | seVxVy (x y : Reg)
  | ldVxKk (x : Reg) (kk : Byte)
  | addVxKk (x : Reg) (kk : Byte)
  | ldVxVy (x y : Reg)
  | orVxVy (x y : Reg)
  | andVxVy (x y : Reg)
  | xorVxVy (x y : Reg)
  | addVxVy (x y : Reg)
  | subVxVy (x y : Reg)
  | shrVx (x y : Reg)
  | subnVxVy (x y : Reg)
  | shlVx (x y : Reg)
  | sneVxVy (x y : Reg)
  | ldI (nnn : BitVec 12)
  | jpV0 (nnn : BitVec 12)
  | rnd (x : Reg) (kk : Byte)
  | drw (x y : Reg) (n : Fin 16)
  | skp (x : Reg)
  | sknp (x : Reg)
  | ldVxDT (x : Reg)
  | ldVxK (x : Reg)
  | ldDTVx (x : Reg)
  | ldSTVx (x : Reg)
  | addIVx (x : Reg)
  | ldFVx (x : Reg)
  | ldBVx (x : Reg)
  | ldMemVx (x : Reg)
  | ldVxMem (x : Reg)
  deriving DecidableEq, Repr

end Sys2Proof
end

