-- ==== Sys2Proof/Decode.lean ====
section
/-! DEFINITION. The decoder (spec 30_encoding.md R91, R95), total on every word, which rejects an illegal word under the
name of its space (R96); the encoder (R103); the opcode table as rows of mask and match (R94); and `decodeTableWord`. -/

namespace Sys2Proof

/-! ### Fields (R91) -/

/-- `op[15:12]`. -/
def fieldTop (op : Word) : Fin 16 := (op.extractLsb' 12 4).toFin
/-- `op[11:8]`. -/
def fieldX (op : Word) : Reg := (op.extractLsb' 8 4).toFin
/-- `op[7:4]`. -/
def fieldY (op : Word) : Reg := (op.extractLsb' 4 4).toFin
/-- `op[3:0]`. -/
def fieldN (op : Word) : Fin 16 := (op.extractLsb' 0 4).toFin
/-- `op[7:0]`. -/
def fieldKk (op : Word) : Byte := op.extractLsb' 0 8
/-- `op[11:0]`. -/
def fieldNnn (op : Word) : BitVec 12 := op.extractLsb' 0 12

/-- Two bytes as a big-endian word, the first the more significant (20_memory.md R62). -/
def wordOfBytes (hi lo : Byte) : Word := hi ++ lo

/-! ### Decoding (R95) -/

/-- Why a word is no instruction: the five spaces of R96 beside `SYS`, and a program text that ends inside a word. -/
inductive DecodeReject where
  | illegal5
  | illegal8
  | illegal9
  | illegalE
  | illegalF
  | truncated
  deriving DecidableEq, Repr

/-- Family 0: the two exact matches take priority, every other word is `SYS`. -/
def decode0 (op : Word) : Instr :=
  if op = 0x00E0#16 then .cls else if op = 0x00EE#16 then .ret else .sys (fieldNnn op)

/-- Family 8: the sub-function is `n`; what is left of its values is 8, 9, A, B, C, D and F, all illegal. -/
def decode8 (op : Word) : Except DecodeReject Instr :=
  match fieldN op with
  | 0x0 => .ok (.ldVxVy (fieldX op) (fieldY op))
  | 0x1 => .ok (.orVxVy (fieldX op) (fieldY op))
  | 0x2 => .ok (.andVxVy (fieldX op) (fieldY op))
  | 0x3 => .ok (.xorVxVy (fieldX op) (fieldY op))
  | 0x4 => .ok (.addVxVy (fieldX op) (fieldY op))
  | 0x5 => .ok (.subVxVy (fieldX op) (fieldY op))
  | 0x6 => .ok (.shrVx (fieldX op) (fieldY op))
  | 0x7 => .ok (.subnVxVy (fieldX op) (fieldY op))
  | 0xE => .ok (.shlVx (fieldX op) (fieldY op))
  | _ => .error .illegal8

/-- Family E: the sub-function is `kk`. -/
def decodeE (op : Word) : Except DecodeReject Instr :=
  if fieldKk op = 0x9E#8 then .ok (.skp (fieldX op))
  else if fieldKk op = 0xA1#8 then .ok (.sknp (fieldX op))
  else .error .illegalE

/-- Family F: the sub-function is `kk`. -/
def decodeF (op : Word) : Except DecodeReject Instr :=
  if fieldKk op = 0x07#8 then .ok (.ldVxDT (fieldX op))
  else if fieldKk op = 0x0A#8 then .ok (.ldVxK (fieldX op))
  else if fieldKk op = 0x15#8 then .ok (.ldDTVx (fieldX op))
  else if fieldKk op = 0x18#8 then .ok (.ldSTVx (fieldX op))
  else if fieldKk op = 0x1E#8 then .ok (.addIVx (fieldX op))
  else if fieldKk op = 0x29#8 then .ok (.ldFVx (fieldX op))
  else if fieldKk op = 0x33#8 then .ok (.ldBVx (fieldX op))
  else if fieldKk op = 0x55#8 then .ok (.ldMemVx (fieldX op))
  else if fieldKk op = 0x65#8 then .ok (.ldVxMem (fieldX op))
  else .error .illegalF

/-- The instruction a 16-bit word stands for, or the illegal space it lies in (R95, R96). The last
case is `top = 0xF`. -/
def decodeWord (op : Word) : Except DecodeReject Instr :=
  match fieldTop op with
  | 0x0 => .ok (decode0 op)
  | 0x1 => .ok (.jp (fieldNnn op))
  | 0x2 => .ok (.call (fieldNnn op))
  | 0x3 => .ok (.seVxKk (fieldX op) (fieldKk op))
  | 0x4 => .ok (.sneVxKk (fieldX op) (fieldKk op))
  | 0x5 => if fieldN op = 0 then .ok (.seVxVy (fieldX op) (fieldY op)) else .error .illegal5
  | 0x6 => .ok (.ldVxKk (fieldX op) (fieldKk op))
  | 0x7 => .ok (.addVxKk (fieldX op) (fieldKk op))
  | 0x8 => decode8 op
  | 0x9 => if fieldN op = 0 then .ok (.sneVxVy (fieldX op) (fieldY op)) else .error .illegal9
  | 0xA => .ok (.ldI (fieldNnn op))
  | 0xB => .ok (.jpV0 (fieldNnn op))
  | 0xC => .ok (.rnd (fieldX op) (fieldKk op))
  | 0xD => .ok (.drw (fieldX op) (fieldY op) (fieldN op))
  | 0xE => decodeE op
  | _ => decodeF op

/-- The instruction at the head of a text of bytes, and the bytes after it. Every instruction is two bytes (R90). -/
def decodeBytes : List Byte → Except DecodeReject (Instr × List Byte)
  | hi :: lo :: rest =>
    match decodeWord (wordOfBytes hi lo) with
    | .ok i => .ok (i, rest)
    | .error r => .error r
  | [_] | [] => .error .truncated

/-! ### Encoding (R92, R103) -/

/-- A nibble as four bits. -/
def nibble (k : Fin 16) : BitVec 4 := BitVec.ofFin k

/-- Formats `FIXED` and `NNN`: `top` and a 12-bit field. -/
def encNnn (top : Fin 16) (nnn : BitVec 12) : Word := nibble top ++ nnn

/-- Formats `XKK` and `X`: `top`, `x` and a byte. -/
def encXkk (top : Fin 16) (x : Reg) (kk : Byte) : Word := nibble top ++ nibble x ++ kk

/-- Formats `XY` and `XYN`: `top`, `x`, `y` and a nibble. -/
def encXyn (top : Fin 16) (x y : Reg) (n : Fin 16) : Word := nibble top ++ nibble x ++ nibble y ++ nibble n

/-- The word of an instruction: its fields filled into its pattern (R103). -/
def encode : Instr → Word
  | .cls => encNnn 0x0 0x0E0#12
  | .ret => encNnn 0x0 0x0EE#12
  | .sys nnn => encNnn 0x0 nnn
  | .jp nnn => encNnn 0x1 nnn
  | .call nnn => encNnn 0x2 nnn
  | .seVxKk x kk => encXkk 0x3 x kk
  | .sneVxKk x kk => encXkk 0x4 x kk
  | .seVxVy x y => encXyn 0x5 x y 0x0
  | .ldVxKk x kk => encXkk 0x6 x kk
  | .addVxKk x kk => encXkk 0x7 x kk
  | .ldVxVy x y => encXyn 0x8 x y 0x0
  | .orVxVy x y => encXyn 0x8 x y 0x1
  | .andVxVy x y => encXyn 0x8 x y 0x2
  | .xorVxVy x y => encXyn 0x8 x y 0x3
  | .addVxVy x y => encXyn 0x8 x y 0x4
  | .subVxVy x y => encXyn 0x8 x y 0x5
  | .shrVx x y => encXyn 0x8 x y 0x6
  | .subnVxVy x y => encXyn 0x8 x y 0x7
  | .shlVx x y => encXyn 0x8 x y 0xE
  | .sneVxVy x y => encXyn 0x9 x y 0x0
  | .ldI nnn => encNnn 0xA nnn
  | .jpV0 nnn => encNnn 0xB nnn
  | .rnd x kk => encXkk 0xC x kk
  | .drw x y n => encXyn 0xD x y n
  | .skp x => encXkk 0xE x 0x9E#8
  | .sknp x => encXkk 0xE x 0xA1#8
  | .ldVxDT x => encXkk 0xF x 0x07#8
  | .ldVxK x => encXkk 0xF x 0x0A#8
  | .ldDTVx x => encXkk 0xF x 0x15#8
  | .ldSTVx x => encXkk 0xF x 0x18#8
  | .addIVx x => encXkk 0xF x 0x1E#8
  | .ldFVx x => encXkk 0xF x 0x29#8
  | .ldBVx x => encXkk 0xF x 0x33#8
  | .ldMemVx x => encXkk 0xF x 0x55#8
  | .ldVxMem x => encXkk 0xF x 0x65#8

/-- The two bytes of an instruction, the more significant first (20_memory.md R62). -/
def encodeBytes (i : Instr) : List Byte := [(encode i).extractLsb' 8 8, (encode i).extractLsb' 0 8]

/-! ### The opcode table (R94) -/

/-- A row of the table: `op` selects it when `op AND mask = pattern`. -/
structure OpcodeRow where
  mask : Word
  pattern : Word
  deriving DecidableEq, Repr

/-- Whether a word selects a row. -/
def OpcodeRow.selects (r : OpcodeRow) (op : Word) : Bool := (op &&& r.mask) == r.pattern

/-- The 35 rows of R94, in decode priority order. -/
def opcodeTable : List OpcodeRow :=
  [⟨0xFFFF, 0x00E0⟩, ⟨0xFFFF, 0x00EE⟩, ⟨0xF000, 0x0000⟩, ⟨0xF000, 0x1000⟩, ⟨0xF000, 0x2000⟩, ⟨0xF000, 0x3000⟩,
   ⟨0xF000, 0x4000⟩, ⟨0xF00F, 0x5000⟩, ⟨0xF000, 0x6000⟩, ⟨0xF000, 0x7000⟩] ++
  [⟨0xF00F, 0x8000⟩, ⟨0xF00F, 0x8001⟩, ⟨0xF00F, 0x8002⟩, ⟨0xF00F, 0x8003⟩, ⟨0xF00F, 0x8004⟩, ⟨0xF00F, 0x8005⟩,
   ⟨0xF00F, 0x8006⟩, ⟨0xF00F, 0x8007⟩, ⟨0xF00F, 0x800E⟩, ⟨0xF00F, 0x9000⟩] ++
  [⟨0xF000, 0xA000⟩, ⟨0xF000, 0xB000⟩, ⟨0xF000, 0xC000⟩, ⟨0xF000, 0xD000⟩, ⟨0xF0FF, 0xE09E⟩, ⟨0xF0FF, 0xE0A1⟩] ++
  [⟨0xF0FF, 0xF007⟩, ⟨0xF0FF, 0xF00A⟩, ⟨0xF0FF, 0xF015⟩, ⟨0xF0FF, 0xF018⟩, ⟨0xF0FF, 0xF01E⟩, ⟨0xF0FF, 0xF029⟩,
   ⟨0xF0FF, 0xF033⟩, ⟨0xF0FF, 0xF055⟩, ⟨0xF0FF, 0xF065⟩]

/-- The number in R94, less one, of an instruction's row. -/
def rowIndex : Instr → Nat
  | .cls => 0 | .ret => 1 | .sys _ => 2 | .jp _ => 3 | .call _ => 4 | .seVxKk _ _ => 5 | .sneVxKk _ _ => 6
  | .seVxVy _ _ => 7 | .ldVxKk _ _ => 8 | .addVxKk _ _ => 9 | .ldVxVy _ _ => 10 | .orVxVy _ _ => 11
  | .andVxVy _ _ => 12 | .xorVxVy _ _ => 13 | .addVxVy _ _ => 14 | .subVxVy _ _ => 15 | .shrVx _ _ => 16
  | .subnVxVy _ _ => 17 | .shlVx _ _ => 18 | .sneVxVy _ _ => 19 | .ldI _ => 20 | .jpV0 _ => 21 | .rnd _ _ => 22
  | .drw _ _ _ => 23 | .skp _ => 24 | .sknp _ => 25 | .ldVxDT _ => 26 | .ldVxK _ => 27 | .ldDTVx _ => 28
  | .ldSTVx _ => 29 | .addIVx _ => 30 | .ldFVx _ => 31 | .ldBVx _ => 32 | .ldMemVx _ => 33 | .ldVxMem _ => 34

/-- The first row of the table that a word selects, if it selects one. -/
def selectRow (op : Word) : Option Nat := opcodeTable.findIdx? (·.selects op)

/-! ### The host's question -/

/-- The instruction the decoder reads from `nbits` bits `w` numbered as spec/opcode_table.json numbers them, laid out
as the hardware stores them: the high byte first. Every row has 16 bits, so nothing above them is used. -/
def decodeTableWord (nbits w : Nat) : Option Instr :=
  match decodeBytes [BitVec.ofNat 8 ((w % 2 ^ nbits) / 256), BitVec.ofNat 8 (w % 2 ^ nbits)] with
  | .ok (i, _) => some i
  | .error _ => none

end Sys2Proof
end

