-- ==== Sys2Proof/Machine/Decided.lean ====
section
/-! DEFINITION. The values the spec decides for the open parameters (spec 00_scope.md R6): the font of 10_state.md R36
and the setting that the reset state carries. Statements over all states hold for every setting. -/

namespace Sys2Proof.Machine

/-- The decided value of `FONT` (10_state.md R36): sixteen glyphs of five bytes. PRESUMED, the spec marks it as general
knowledge (log 4). -/
def fontBytes : List Byte :=
  [0xF0, 0x90, 0x90, 0x90, 0xF0] ++ [0x20, 0x60, 0x20, 0x20, 0x70] ++
  [0xF0, 0x10, 0xF0, 0x80, 0xF0] ++ [0xF0, 0x10, 0xF0, 0x10, 0xF0] ++
  [0x90, 0x90, 0xF0, 0x10, 0x10] ++ [0xF0, 0x80, 0xF0, 0x10, 0xF0] ++
  [0xF0, 0x80, 0xF0, 0x90, 0xF0] ++ [0xF0, 0x10, 0x20, 0x40, 0x40] ++
  [0xF0, 0x90, 0xF0, 0x90, 0xF0] ++ [0xF0, 0x90, 0xF0, 0x10, 0xF0] ++
  [0xF0, 0x90, 0xF0, 0x90, 0x90] ++ [0xE0, 0x90, 0xE0, 0x90, 0xE0] ++
  [0xF0, 0x80, 0x80, 0x80, 0xF0] ++ [0xE0, 0x90, 0x90, 0x90, 0xE0] ++
  [0xF0, 0x80, 0xF0, 0x80, 0xF0] ++ [0xF0, 0x80, 0xF0, 0x80, 0x80]

end Sys2Proof.Machine

namespace Sys2Proof.Config

/-- The decided table as a value of the parameter. -/
def decidedFont : Font := ⟨Machine.fontBytes.toArray, rfl⟩

/-- The setting the spec decides (R6; decisions D7, D8, D9). PRESUMED for the font, DESIGN CHOICE of the spec for the two
orders (log 2, 3, 4). -/
def Params.decided : Params := ⟨decidedFont, .msbLeft, .tableOrder⟩

end Sys2Proof.Config
end

