-- ==== Sys2Proof/Machine/State.lean ====
section
/-! DEFINITION. The state of the machine as plain data (spec 10_state.md R20), the fault record (60_exceptions.md R238),
the operations of the interface (00_scope.md R9), the reasons a step can stop, and the state after reset (R40). -/

namespace Sys2Proof.Machine

/-- `mem` (R34, 20_memory.md R60) as the bytes that differ from what reset leaves at their address, addresses strictly
rising; `Memory.unlisted` says what every other address reads as (log 18). -/
abbrev Memory := List Host.Cell

/-- `fb` (R33): `fb[cx][cy]`, 64 columns of 32 rows; `true` is on. -/
abbrev Framebuffer := Vector (Vector Bool 32) 64

/-- The causes of a fault (60_exceptions.md R231). -/
inductive FaultCause where
  | illegalOpcode
  | stackOverflow
  | stackUnderflow
  | addressOutOfRange
  | keyIndexOutOfRange
  deriving DecidableEq, Repr

/-- A fault record `(cause, op, addr[, e])` (R37, R238). `op` is absent in a fetch fault; `addr` is the address the word
was fetched from; `e` is the offending address or the offending value of `V[x]`. -/
structure FaultRecord where
  cause : FaultCause
  op : Option Word
  addr : Word
  e : Option Nat
  deriving DecidableEq, Repr

/-- The operations of the interface (00_scope.md R9), with whatever numbers the caller gives, legal or not (log 24). -/
inductive Operation where
  | reset
  | loadROM (bytes : List Byte)
  | cycle
  | tick
  | press (k : Nat)
  | release (k : Nat)
  | pixelAt (cx cy : Nat)
  deriving DecidableEq, Repr

/-- Where the host stands in the boot order (70_reset_and_hazards.md R272): the machine is constructed, its one ROM has
been loaded, or its first cycle has begun. The model's own (log 7). -/
inductive Session where
  | constructed
  | loaded
  | running
  deriving DecidableEq, Repr

/-- The contracts an operation can break (60_exceptions.md R242). -/
inductive Rejection where
  | keyOutOfRange
  | releaseNotPressed
  | pixelOutOfRange
  | romTooLarge
  deriving DecidableEq, Repr

/-- The machine (R20), by the spec's names. The last four fields are the model's own: the setting of the open parameters
(log 2, 3, 4), how many random bytes have been drawn (log 5), the host's place in the boot order (log 7) and the operations
the outside has lined up, oldest first (log 6). -/
structure State where
  mem : Memory
  V : Vector Byte 16
  I : Word
  pc : Word
  stack : Vector Word 16
  depth : Fin 17
  fb : Framebuffer
  DT : Byte
  ST : Byte
  key : Vector Bool 16
  fault : Option FaultRecord
  config : Config.Params
  draws : Nat
  session : Session
  pending : List Operation
  deriving DecidableEq, Repr

/-- Why a step can stop for good. -/
inductive Fault where
  /-- Raised by `cycle` alone, when the latch is set: "while it is set `Cycle` has no step" (R37, 60_exceptions.md R240).
  Safe: nothing can be proved of a machine that runs on after a fault. -/
  | engineStopped (record : FaultRecord)
  deriving DecidableEq, Repr

/-- Why a step can be given no meaning. -/
inductive Refusal where
  /-- Raised by no arm of `exec`: every instruction has its meaning. It would be safe. -/
  | notModelled (mnemonic : String)
  /-- Raised by `operate` for any operation but `Reset` and `Cycle` while the latch is set: the spec gives it no meaning
  (60_exceptions.md R253). Safe (log 8). -/
  | operationAfterFault
  /-- Raised by `operate` for a `LoadROM` that is not the first one before the first `Cycle`: the spec gives it no meaning
  (70_reset_and_hazards.md R272). Safe (log 7). -/
  | romLoadOutOfOrder
  deriving DecidableEq, Repr

/-- The outcome of a step of this machine. -/
abbrev Result := Host.Outcome State Fault Refusal

/-- The machine right after `Reset` (R40, 70_reset_and_hazards.md R270). -/
def State.reset : State where
  mem := []
  V := Vector.replicate 16 0
  I := 0
  pc := 0x200
  stack := Vector.replicate 16 0
  depth := 0
  fb := Vector.replicate 64 (Vector.replicate 32 false)
  DT := 0
  ST := 0
  key := Vector.replicate 16 false
  fault := none
  config := Config.Params.decided
  draws := 0
  session := .constructed
  pending := []

end Sys2Proof.Machine
end

