-- ==== Sys2Proof/Machine/Memory.lean ====
section
/-! DEFINITION. Memory (spec 20_memory.md): what an unlisted address reads as, the canonical form, reading and
writing one byte, the checked primitives `MemRead` and `MemWrite` (R66, R67), and runs of bytes at ascending addresses. -/

namespace Sys2Proof.Machine

/-- What an address reads as that the list does not name: the reset contents (10_state.md R40), the font in
0x000..0x04F and zero above it. The font is the parameter `FONT`, which every operation below takes first (log 4, 18). -/
def Memory.unlisted (font : Config.Font) (a : Nat) : Byte := if h : a < Config.fontSize then font[a] else 0

/-- The canonical form: addresses inside memory and strictly rising, no entry equal to what an unlisted address reads as. -/
def Memory.wf (font : Config.Font) : Memory → Bool
  | [] => true
  | (a, v) :: m => decide (a < Config.memSize) && decide (v ≠ Memory.unlisted font a) && m.all (fun c => decide (a < c.1)) &&
      Memory.wf font m

/-- The byte at an address. -/
def Memory.read (font : Config.Font) : Memory → Nat → Byte
  | [], a => Memory.unlisted font a
  | (b, w) :: m, a => if a = b then w else Memory.read font m a

/-- An entry put before a list whose addresses lie above it, unless it is what an unlisted address reads as. -/
def Memory.consCell (font : Config.Font) (a : Nat) (v : Byte) (m : Memory) : Memory :=
  if v = Memory.unlisted font a then m else (a, v) :: m

/-- The memory with one byte changed, in canonical form. -/
def Memory.write (font : Config.Font) : Memory → Nat → Byte → Memory
  | [], a, v => Memory.consCell font a v []
  | (b, w) :: m, a, v =>
    if a < b then Memory.consCell font a v ((b, w) :: m)
    else if a = b then Memory.consCell font a v m
    else (b, w) :: Memory.write font m a v

/-! ### The checked primitives. `.error e` stands for `raise AddressOutOfRange(e)`. -/

/-- `MemRead(addr, 1)` (R66). -/
def memRead (font : Config.Font) (m : Memory) (addr : Nat) : Except Nat Byte :=
  if addr ≤ 0xFFF then .ok (m.read font addr) else .error addr

/-- `MemRead(addr, 2)` (R66): big-endian, it faults on `addr` first, then on `addr + 1`. -/
def memRead16 (font : Config.Font) (m : Memory) (addr : Nat) : Except Nat Word :=
  match memRead font m addr with
  | .error e => .error e
  | .ok hi =>
    match memRead font m (addr + 1) with
    | .error e => .error e
    | .ok lo => .ok (wordOfBytes hi lo)

/-- `MemWrite(addr, 1, v)` (R67). -/
def memWrite (font : Config.Font) (m : Memory) (addr : Nat) (v : Byte) : Except Nat Memory :=
  if addr ≤ 0xFFF then .ok (m.write font addr v) else .error addr

/-! ### Runs of bytes at ascending addresses (R63), for a run that has passed its range check -/

/-- The `n` bytes from `base` on. -/
def readBlock (font : Config.Font) (m : Memory) : Nat → Nat → List Byte
  | _, 0 => []
  | base, n + 1 => m.read font base :: readBlock font m (base + 1) n

/-- The memory with the bytes stored from `base` on. -/
def storeBlock (font : Config.Font) (m : Memory) : Nat → List Byte → Memory
  | _, [] => m
  | base, v :: vs => storeBlock font (m.write font base v) (base + 1) vs

/-- The range check of a run of `n` bytes from `base` on (42_index_memory.md R176): where it would touch an address
above 0xFFF, the lowest such address. -/
def blockFault (base n : Nat) : Option Nat :=
  if 0 < n ∧ 0xFFF < base + (n - 1) then some (max base 0x1000) else none

/-! ### The memory of a state, under the state's own font -/

/-- `mem[a]`. -/
def State.byte (s : State) (a : Nat) : Byte := s.mem.read s.config.font a

/-- The `n` bytes from `base` on. -/
def State.load (s : State) (base n : Nat) : List Byte := readBlock s.config.font s.mem base n

/-- The bytes stored from `base` on. -/
def State.store (s : State) (base : Nat) (vs : List Byte) : State := { s with mem := storeBlock s.config.font s.mem base vs }

/-- The memory of the state is in canonical form. -/
abbrev State.MemWf (s : State) : Prop := s.mem.wf s.config.font = true

end Sys2Proof.Machine
end

