-- ==== Sys2Proof/Machine/Ops.lean ====
section
/-! DEFINITION. The named operations over registers, stack and framebuffer, one update per piece of state, and fault entry
(spec 60_exceptions.md R238). -/

namespace Sys2Proof.Machine

/-! ### Registers and updates -/

/-- `V[x]` (10_state.md R21): no register is hardwired. -/
def State.reg (s : State) (x : Reg) : Byte := s.V[x]

/-- `V[x] <- v`. -/
def State.setReg (s : State) (x : Reg) (v : Byte) : State := { s with V := s.V.set x v }

/-- All V registers at once. -/
def State.setV (s : State) (r : Vector Byte 16) : State := { s with V := r }

/-- `I <- v`. -/
def State.setI (s : State) (v : Word) : State := { s with I := v }

/-- `pc <- v`. -/
def State.setPc (s : State) (v : Word) : State := { s with pc := v }

/-- The whole of memory. -/
def State.setMem (s : State) (m : Memory) : State := { s with mem := m }

/-- The call stack and its depth counter. -/
def State.setStack (s : State) (st : Vector Word 16) (d : Fin 17) : State := { s with stack := st, depth := d }

/-- The whole framebuffer. -/
def State.setFb (s : State) (f : Framebuffer) : State := { s with fb := f }

/-- `DT <- v`. -/
def State.setDT (s : State) (v : Byte) : State := { s with DT := v }

/-- `ST <- v`. -/
def State.setST (s : State) (v : Byte) : State := { s with ST := v }

/-- `key[k] <- b`. -/
def State.setKey (s : State) (k : Fin 16) (b : Bool) : State := { s with key := s.key.set k b }

/-- The fault latch. -/
def State.setFault (s : State) (r : Option FaultRecord) : State := { s with fault := r }

/-- The count of random bytes drawn. -/
def State.setDraws (s : State) (n : Nat) : State := { s with draws := n }

/-- The host's place in the boot order. -/
def State.setSession (s : State) (x : Session) : State := { s with session := x }

/-- The operations lined up. -/
def State.setPending (s : State) (ops : List Operation) : State := { s with pending := ops }

/-! ### Program counter, call stack, framebuffer -/

/-- A skip: one more `pc <- pc + 2` in the execute step (40_flow.md section 3). -/
def State.skipIf (s : State) (c : Bool) : State := if c then s.setPc (s.pc + 2) else s

/-- Push (10_state.md R28): none at depth 16. -/
def State.push? (s : State) (v : Word) : Option State :=
  if h : s.depth.val < 16 then some (s.setStack (s.stack.set s.depth.val v) ⟨s.depth.val + 1, by omega⟩) else none

/-- Pop (10_state.md R28): the slot's value and the state after it, none at depth 0. The slot keeps its contents. -/
def State.pop? (s : State) : Option (Word × State) :=
  if h : 0 < s.depth.val then
    some (s.stack[s.depth.val - 1], s.setStack s.stack ⟨s.depth.val - 1, by omega⟩)
  else none

/-- `fb[cx][cy]`. -/
def Framebuffer.pixel (f : Framebuffer) (cx : Fin 64) (cy : Fin 32) : Bool := f[cx][cy]

/-- `fb[cx][cy] <- not fb[cx][cy]`. -/
def Framebuffer.flip (f : Framebuffer) (cx : Fin 64) (cy : Fin 32) : Framebuffer :=
  f.set cx (f[cx].set cy (!f.pixel cx cy))

/-- Every pixel off. -/
def Framebuffer.clear : Framebuffer := Vector.replicate 64 (Vector.replicate 32 false)

/-! ### Faults -/

/-- Fault entry (R238): the latch takes the record and nothing else happens. There is no return from a fault beside it:
only `Reset` clears the latch (R240), see `resetMachine`. -/
def raise (cause : FaultCause) (op : Option Word) (addr : Word) (e : Option Nat) (s : State) : State :=
  s.setFault (some ⟨cause, op, addr, e⟩)

/-- Fault entry in the execute step of the instruction `i`, where `pc` already holds `a + 2`: the word is the one `i`
decodes from and the address the one it was fetched from (R231, R239; log 15). -/
def raiseHere (cause : FaultCause) (i : Instr) (e : Option Nat) (s : State) : State :=
  raise cause (some (encode i)) (s.pc - 2) e s

/-- The code of a cause (R231): a label, held in no register of the machine (log 17). -/
def FaultCause.code : FaultCause → Nat
  | .illegalOpcode => 1
  | .stackOverflow => 2
  | .stackUnderflow => 3
  | .addressOutOfRange => 4
  | .keyIndexOutOfRange => 5

end Sys2Proof.Machine
end

