-- ==== Sys2Proof/Machine/Operands.lean ====
section
/-! DEFINITION. Operand forms: the address immediate (spec 30_encoding.md R93), memory at `I + offset`
(42_index_memory.md R176), a register read as a key code (44_keys_timers.md R210), a glyph's address, the registers
`V0..Vx`, and the decimal digits. -/

namespace Sys2Proof.Machine

/-- `zext_16(nnn)` (R93). -/
def zextNnn (nnn : BitVec 12) : Word := nnn.setWidth 16

/-- The effective address `I + k` as an unbounded integer (R176, 20_memory.md R65). -/
def State.ea (s : State) (k : Nat) : Nat := s.I.toNat + k

/-- The range check of `n` bytes from `I` on (R176). -/
def State.dataFault (s : State) (n : Nat) : Option Nat := blockFault (s.ea 0) n

/-- A register's value as a key code: none above 0x0F (R210). -/
def keyCode? (v : Byte) : Option (Fin 16) := if h : v.toNat < 16 then some ⟨v.toNat, h⟩ else none

/-- The least pressed key (44_keys_timers.md R213). -/
def leastPressed (key : Vector Bool 16) : Option (Fin 16) := (List.finRange 16).find? (fun k => key[k])

/-- `V[0]..V[x]`, in order (42_index_memory.md R174). -/
def State.regsUpTo (s : State) (x : Reg) : List Byte := s.V.toList.take (x.val + 1)

/-- The V registers with `V[i] <- mem[base + i]` for `i = 0..x`, the others kept (42_index_memory.md R175). -/
def State.loadedV (s : State) (x : Reg) (base : Nat) : Vector Byte 16 :=
  Vector.ofFn fun i : Fin 16 => if i.val ≤ x.val then s.byte (base + i.val) else s.V[i]

/-- `5 * zext_16(V[x])`, the address of a glyph (42_index_memory.md R172). -/
def glyphAddr (v : Byte) : Word := 5 * v.zext16

/-- Hundreds, tens, ones (42_index_memory.md R173). -/
def decimalDigits (v : Byte) : List Byte :=
  [BitVec.ofNat 8 (v.toNat / 100), BitVec.ofNat 8 (v.toNat / 10 % 10), BitVec.ofNat 8 (v.toNat % 10)]

end Sys2Proof.Machine
end

