-- ==== Sys2Proof/Machine/Flags.lean ====
section
/-! DEFINITION. The flag computations (spec 10_state.md R22, 41_alu.md R146 to R150) and the order of an instruction's two
writes (R152). Every flag is computed from the operand values as they were (10_state.md R23). -/

namespace Sys2Proof.Machine

/-- A flag as the byte written to `VF`: 0x00 or 0x01 (R22). -/
def flagByte (b : Bool) : Byte := if b then 1 else 0

/-- The carry out of bit 7 (R146): the unbounded sum exceeds 255. -/
def carryOut (vx vy : Byte) : Bool := decide (255 < vx.toNat + vy.toNat)

/-- NOT borrow (R147, R149): the minuend is at least the subtrahend. -/
def noBorrow (minuend subtrahend : Byte) : Bool := decide (subtrahend.toNat ≤ minuend.toNat)

/-- The bit a right shift by one shifts out (R148). -/
def lowBit (vx : Byte) : Bool := vx.getLsbD 0

/-- The bit a left shift by one shifts out (R150). -/
def highBit (vx : Byte) : Bool := vx.getLsbD 7

/-- The two writes of `8xy4`, `8xy5`, `8xy7`: the result, then the flag, under both settings (R152). -/
def writeResultThenFlag (x : Reg) (result : Byte) (flag : Bool) (s : State) : State :=
  (s.setReg x result).setReg vf (flagByte flag)

/-- The two writes of `8xy6`, `8xyE`: `VF_DEST_ORDER` says which one survives when both go to `VF` (R152; log 3). -/
def writeShift (x : Reg) (result : Byte) (flag : Bool) (s : State) : State :=
  match s.config.vfDestOrder with
  | .tableOrder => (s.setReg vf (flagByte flag)).setReg x result
  | .flagLast => (s.setReg x result).setReg vf (flagByte flag)

end Sys2Proof.Machine
end

