-- ==== Sys2Proof/Machine/Alu.lean ====
section
/-! DEFINITION. Register load, arithmetic, logic, shift, random (spec 41_alu.md). Operands are read from the state before
the instruction; results wrap modulo 256 (R153). -/

namespace Sys2Proof.Machine

/-- `6xkk` LD Vx, kk (R140). -/
def execLdVxKk (x : Reg) (kk : Byte) (s : State) : Result := .next (s.setReg x kk)

/-- `7xkk` ADD Vx, kk (R141): no flag. -/
def execAddVxKk (x : Reg) (kk : Byte) (s : State) : Result := .next (s.setReg x (s.reg x + kk))

/-- `8xy0` LD Vx, Vy (R142). -/
def execLdVxVy (x y : Reg) (s : State) : Result := .next (s.setReg x (s.reg y))

/-- `8xy1` OR Vx, Vy (R143): no flag. -/
def execOrVxVy (x y : Reg) (s : State) : Result := .next (s.setReg x (s.reg x ||| s.reg y))

/-- `8xy2` AND Vx, Vy (R144): no flag. -/
def execAndVxVy (x y : Reg) (s : State) : Result := .next (s.setReg x (s.reg x &&& s.reg y))

/-- `8xy3` XOR Vx, Vy (R145): no flag. -/
def execXorVxVy (x y : Reg) (s : State) : Result := .next (s.setReg x (s.reg x ^^^ s.reg y))

/-- `8xy4` ADD Vx, Vy (R146). -/
def execAddVxVy (x y : Reg) (s : State) : Result :=
  .next (writeResultThenFlag x (s.reg x + s.reg y) (carryOut (s.reg x) (s.reg y)) s)

/-- `8xy5` SUB Vx, Vy (R147). -/
def execSubVxVy (x y : Reg) (s : State) : Result :=
  .next (writeResultThenFlag x (s.reg x - s.reg y) (noBorrow (s.reg x) (s.reg y)) s)

/-- `8xy6` SHR Vx (R148): `y` is ignored (30_encoding.md R99). -/
def execShrVx (x _y : Reg) (s : State) : Result := .next (writeShift x (s.reg x >>> 1) (lowBit (s.reg x)) s)

/-- `8xy7` SUBN Vx, Vy (R149). -/
def execSubnVxVy (x y : Reg) (s : State) : Result :=
  .next (writeResultThenFlag x (s.reg y - s.reg x) (noBorrow (s.reg y) (s.reg x)) s)

/-- `8xyE` SHL Vx (R150): `y` is ignored (30_encoding.md R99). -/
def execShlVx (x _y : Reg) (s : State) : Result := .next (writeShift x (s.reg x <<< 1) (highBit (s.reg x)) s)

/-- `Cxkk` RND Vx, kk (R151): the byte drawn is the free value `Config.randByte`; one byte is consumed (log 5). -/
def execRnd (x : Reg) (kk : Byte) (s : State) : Result :=
  .next ((s.setReg x (kk &&& Config.randByte s.draws)).setDraws (s.draws + 1))

end Sys2Proof.Machine
end

