-- ==== Sys2Proof/Machine/Display.lean ====
section
/-! DEFINITION. Display instructions (spec 43_display.md). -/

namespace Sys2Proof.Machine

/-- `SpriteBit(b, c)` (R192): the bit of a row byte that belongs to column offset `c` (log 2). -/
def spriteBit (order : Config.SpriteBitOrder) (b : Byte) (c : Nat) : Bool :=
  match order with
  | .msbLeft => b.getLsbD (7 - c)
  | .lsbLeft => b.getLsbD c

/-- The column `(vx + c) mod 64` (R191). -/
def spriteCol (vx : Byte) (c : Nat) : Fin 64 := ⟨(vx.toNat + c) % 64, Nat.mod_lt _ (by decide)⟩

/-- The row `(vy + r) mod 32` (R191). -/
def spriteRow (vy : Byte) (r : Nat) : Fin 32 := ⟨(vy.toNat + r) % 32, Nat.mod_lt _ (by decide)⟩

/-- The pixels under the 1 bits of one row byte, left to right (R191). -/
def rowDots (order : Config.SpriteBitOrder) (vx : Byte) (cy : Fin 32) (b : Byte) : List (Fin 64 × Fin 32) :=
  (List.range 8).filterMap fun c => if spriteBit order b c then some (spriteCol vx c, cy) else none

/-- The pixels under the 1 bits of the rows from row `r` on, row by row (R191). -/
def spriteDots (order : Config.SpriteBitOrder) (vx vy : Byte) : Nat → List Byte → List (Fin 64 × Fin 32)
  | _, [] => []
  | r, b :: bs => rowDots order vx (spriteRow vy r) b ++ spriteDots order vx vy (r + 1) bs

/-- The framebuffer with the pixels flipped one after another, and whether one of them was on (R191). -/
def flipDots : List (Fin 64 × Fin 32) → Framebuffer → Bool → Framebuffer × Bool
  | [], f, hit => (f, hit)
  | (cx, cy) :: ds, f, hit => flipDots ds (f.flip cx cy) (hit || f.pixel cx cy)

/-- `00E0` CLS (R190). -/
def execCls (s : State) : Result := .next (s.setFb Framebuffer.clear)

/-- The framebuffer after the sprite of the `n` bytes from `I` on is drawn at `(V[x], V[y])`, and whether a lit pixel lay
under a 1 bit (R191). -/
def drawn (x y : Reg) (n : Fin 16) (s : State) : Framebuffer × Bool :=
  flipDots (spriteDots s.config.spriteBitOrder (s.reg x) (s.reg y) 0 (s.load (s.ea 0) n.val)) s.fb false

/-- `Dxyn` DRW Vx, Vy, n (R191): `V[x]` and `V[y]` are read before `VF` is written (10_state.md R23). -/
def execDrw (x y : Reg) (n : Fin 16) (s : State) : Result :=
  match s.dataFault n.val with
  | some e => .next (raiseHere .addressOutOfRange (.drw x y n) (some e) s)
  | none => .next ((s.setFb (drawn x y n s).1).setReg vf (flagByte (drawn x y n s).2))

end Sys2Proof.Machine
end

