-- ==== Sys2Proof/Machine/Flow.lean ====
section
/-! DEFINITION. Control transfer (spec 40_flow.md). A meaning runs in the execute step, where `pc` holds `a + 2` (R120). -/

namespace Sys2Proof.Machine

/-- `00EE` RET (R121). -/
def execRet (s : State) : Result :=
  match s.pop? with
  | none => .next (raiseHere .stackUnderflow .ret none s)
  | some (target, t) => .next (t.setPc target)

/-- `0nnn` SYS (R122): always the fault. -/
def execSys (nnn : BitVec 12) (s : State) : Result := .next (raiseHere .illegalOpcode (.sys nnn) none s)

/-- `1nnn` JP (R123). -/
def execJp (nnn : BitVec 12) (s : State) : Result := .next (s.setPc (zextNnn nnn))

/-- `2nnn` CALL (R124): the pushed value is the advanced `pc`. -/
def execCall (nnn : BitVec 12) (s : State) : Result :=
  match s.push? s.pc with
  | none => .next (raiseHere .stackOverflow (.call nnn) none s)
  | some t => .next (t.setPc (zextNnn nnn))

/-- `3xkk` SE Vx, kk (R125). -/
def execSeVxKk (x : Reg) (kk : Byte) (s : State) : Result := .next (s.skipIf (s.reg x == kk))

/-- `4xkk` SNE Vx, kk (R126). -/
def execSneVxKk (x : Reg) (kk : Byte) (s : State) : Result := .next (s.skipIf (s.reg x != kk))

/-- `5xy0` SE Vx, Vy (R127). -/
def execSeVxVy (x y : Reg) (s : State) : Result := .next (s.skipIf (s.reg x == s.reg y))

/-- `9xy0` SNE Vx, Vy (R128). -/
def execSneVxVy (x y : Reg) (s : State) : Result := .next (s.skipIf (s.reg x != s.reg y))

/-- `Bnnn` JP V0, nnn (R129): the sum is not reduced modulo 4096. -/
def execJpV0 (nnn : BitVec 12) (s : State) : Result := .next (s.setPc (zextNnn nnn + (s.reg 0).zext16))

end Sys2Proof.Machine
end

