-- ==== Sys2Proof/Machine/IndexMemory.lean ====
section
/-! DEFINITION. Index register and memory instructions (spec 42_index_memory.md). The range check comes before any write;
`I` is never changed by addressing (R176). -/

namespace Sys2Proof.Machine

/-- `Annn` LD I, nnn (R170). -/
def execLdI (nnn : BitVec 12) (s : State) : Result := .next (s.setI (zextNnn nnn))

/-- `Fx1E` ADD I, Vx (R171): wraps modulo 65536, no flag. -/
def execAddIVx (x : Reg) (s : State) : Result := .next (s.setI (s.I + (s.reg x).zext16))

/-- `Fx29` LD F, Vx (R172): the literal product (log 20). -/
def execLdFVx (x : Reg) (s : State) : Result := .next (s.setI (glyphAddr (s.reg x)))

/-- `Fx33` LD B, Vx (R173). -/
def execLdBVx (x : Reg) (s : State) : Result :=
  match s.dataFault 3 with
  | some e => .next (raiseHere .addressOutOfRange (.ldBVx x) (some e) s)
  | none => .next (s.store (s.ea 0) (decimalDigits (s.reg x)))

/-- `Fx55` LD [I], Vx (R174). -/
def execLdMemVx (x : Reg) (s : State) : Result :=
  match s.dataFault (x.val + 1) with
  | some e => .next (raiseHere .addressOutOfRange (.ldMemVx x) (some e) s)
  | none => .next (s.store (s.ea 0) (s.regsUpTo x))

/-- `Fx65` LD Vx, [I] (R175). -/
def execLdVxMem (x : Reg) (s : State) : Result :=
  match s.dataFault (x.val + 1) with
  | some e => .next (raiseHere .addressOutOfRange (.ldVxMem x) (some e) s)
  | none => .next (s.setV (s.loadedV x (s.ea 0)))

end Sys2Proof.Machine
end

