-- ==== Sys2Proof/Machine/KeysTimers.lean ====
section
/-! DEFINITION. Keyboard and timer instructions (spec 44_keys_timers.md). -/

namespace Sys2Proof.Machine

/-- `Ex9E` SKP Vx (R210). -/
def execSkp (x : Reg) (s : State) : Result :=
  match keyCode? (s.reg x) with
  | none => .next (raiseHere .keyIndexOutOfRange (.skp x) (some (s.reg x).toNat) s)
  | some k => .next (s.skipIf s.key[k])

/-- `ExA1` SKNP Vx (R211). -/
def execSknp (x : Reg) (s : State) : Result :=
  match keyCode? (s.reg x) with
  | none => .next (raiseHere .keyIndexOutOfRange (.sknp x) (some (s.reg x).toNat) s)
  | some k => .next (s.skipIf (!s.key[k]))

/-- `Fx07` LD Vx, DT (R212). -/
def execLdVxDT (x : Reg) (s : State) : Result := .next (s.setReg x s.DT)

/-- `Fx0A` LD Vx, K (R213): with no key pressed `pc` goes back to this instruction. -/
def execLdVxK (x : Reg) (s : State) : Result :=
  match leastPressed s.key with
  | none => .next (s.setPc (s.pc - 2))
  | some k => .next (s.setReg x (BitVec.ofNat 8 k.val))

/-- `Fx15` LD DT, Vx (R214). -/
def execLdDTVx (x : Reg) (s : State) : Result := .next (s.setDT (s.reg x))

/-- `Fx18` LD ST, Vx (R215). -/
def execLdSTVx (x : Reg) (s : State) : Result := .next (s.setST (s.reg x))

end Sys2Proof.Machine
end

