-- ==== Sys2Proof/Machine/Interface.lean ====
section
/-! DEFINITION. The operations by which the outside acts on the block (spec 00_scope.md R9), each a function on the state
with the answer its caller gets; `Cycle` is in Machine/Cycle.lean. -/

namespace Sys2Proof.Machine

/-- What the caller of an operation is told (60_exceptions.md R242): it was accepted, with what it gives, or rejected. -/
inductive Answer (α : Type) where
  | accepted (a : α)
  | rejected (r : Rejection)
  deriving DecidableEq, Repr

/-- The state after an operation: a rejected one changes nothing (R242; log 9). -/
def Answer.stateOr (s : State) : Answer State → State
  | .accepted t => t
  | .rejected _ => s

/-- The machine right after `Reset` under a setting of the open parameters (00_scope.md R6): memory lists nothing, so its
first 80 bytes are the setting's `FONT` (10_state.md R36). `State.reset` is the case of the decided setting. -/
def resetUnder (c : Config.Params) : State := { State.reset with config := c }

/-- `Reset` (70_reset_and_hazards.md R270): machine construction. The setting of the parameters, the draws already made and
the operations lined up are not the machine's and stay (log 25). -/
def resetMachine (s : State) : State := { resetUnder s.config with draws := s.draws, pending := s.pending }

/-- `LoadROM(bytes)` (R271): the bytes verbatim from 0x200 on. -/
def loadROM (bytes : List Byte) (s : State) : Answer State :=
  if Config.romMax < bytes.length then .rejected .romTooLarge
  else .accepted ((s.store Config.progBase bytes).setSession .loaded)

/-- A timer after one `Tick`: the floor is 0 (60_exceptions.md R244). -/
def countDown (t : Byte) : Byte := if 0 < t.toNat then t - 1 else t

/-- `Tick` (R244): both timers, nothing else. -/
def tick (s : State) : State := (s.setDT (countDown s.DT)).setST (countDown s.ST)

/-- `Press(k)` (R245). -/
def press (k : Nat) (s : State) : Answer State :=
  if h : k < 16 then .accepted (s.setKey ⟨k, h⟩ true) else .rejected .keyOutOfRange

/-- `Release(k)` (R246): a key that is not pressed is rejected. -/
def release (k : Nat) (s : State) : Answer State :=
  if h : k < 16 then
    if s.key[k] then .accepted (s.setKey ⟨k, h⟩ false) else .rejected .releaseNotPressed
  else .rejected .keyOutOfRange

/-- `PixelAt(cx, cy)` (43_display.md R193). -/
def pixelAt (cx cy : Nat) (s : State) : Answer Bool :=
  if h : cx < 64 ∧ cy < 32 then .accepted (s.fb.pixel ⟨cx, h.1⟩ ⟨cy, h.2⟩) else .rejected .pixelOutOfRange

/-- The launch state of a ROM (70_reset_and_hazards.md R273): `LoadROM` applied to the reset state. -/
def launch (c : Config.Params) (rom : List Byte) : Answer State := loadROM rom (resetUnder c)

end Sys2Proof.Machine
end

