-- ==== Sys2Proof/Machine/Cycle.lean ====
section
/-! DEFINITION. `Cycle` (spec 40_flow.md R120): fetch, advance, decode, execute; and one operation of the interface as a
step of the machine. -/

namespace Sys2Proof.Machine

/-- The fetch (R120, 20_memory.md R62): the two bytes at `pc` and `pc + 1`, or the address that faults. -/
def fetch (s : State) : Except Nat Word := memRead16 s.config.font s.mem s.pc.toNat

/-- The advance of `pc` that follows every fetch and precedes decode (R120); with it the machine is running (log 7). -/
def advance (s : State) : State := (s.setPc (s.pc + 2)).setSession .running

/-- Decode and execute a fetched word, in the state after the advance; `a` is the address it was fetched from. -/
def decodeExecute (op a : Word) (s : State) : Result :=
  match decodeWord op with
  | .error _ => .next (raise .illegalOpcode (some op) a none s)
  | .ok i => exec i s

/-- `Cycle` (R120): no step while the latch is set (60_exceptions.md R240); a fetch fault leaves `pc` (R239). -/
def cycle (s : State) : Result :=
  match s.fault with
  | some r => .fault (.engineStopped r)
  | none =>
    match fetch s with
    | .error e => .next (raise .addressOutOfRange none s.pc (some e) (s.setSession .running))
    | .ok op => decodeExecute op s.pc (advance s)

/-- An operation that the spec gives a meaning only while no fault is latched (60_exceptions.md R253; log 8). -/
def unlessFaulted (s t : State) : Result :=
  match s.fault with
  | some _ => .refused .operationAfterFault
  | none => .next t

/-- `LoadROM` in the boot order (70_reset_and_hazards.md R272): one, before the first cycle (log 7). -/
def bootLoad (bytes : List Byte) (s : State) : Result :=
  match s.session with
  | .constructed => unlessFaulted s ((loadROM bytes s).stateOr s)
  | .loaded | .running => .refused .romLoadOutOfOrder

/-- One operation as a step (00_scope.md R9, 20_memory.md R72). -/
def operate (op : Operation) (s : State) : Result :=
  match op with
  | .reset => .next (resetMachine s)
  | .loadROM bytes => bootLoad bytes s
  | .cycle => cycle s
  | .tick => unlessFaulted s (tick s)
  | .press k => unlessFaulted s ((press k s).stateOr s)
  | .release k => unlessFaulted s ((release k s).stateOr s)
  | .pixelAt _ _ => unlessFaulted s s

/-- One step: the oldest operation the outside has lined up, or a `Cycle` where none is lined up (log 6). -/
def stepOnce (s : State) : Result :=
  match s.pending with
  | [] => cycle s
  | op :: rest => operate op (s.setPending rest)

/-- The address the next fetch can succeed at: `pc` where it can, else the start of the program (R27). -/
def fetchAddr (s : State) : Word := if s.pc.toNat ≤ 0xFFE then s.pc else 0x200

/-- A word stored where the next step fetches: nothing lined up before it, no fault latched. -/
def placeWord (s : State) (op : Word) : State :=
  (((s.setPending []).setFault none).setPc (fetchAddr s)).store (fetchAddr s).toNat
    [op.extractLsb' 8 8, op.extractLsb' 0 8]

end Sys2Proof.Machine
end

