-- ==== Sys2Proof/Machine/Step.lean ====
section
/-! DEFINITION. The step, and an instruction placed where the step fetches it. -/

namespace Sys2Proof.Machine

/-- One step of the machine: see `stepOnce`. -/
def step (s : State) : Host.Outcome State Fault Refusal := stepOnce s

/-- The state with an instruction of `nbits` bits `w`, numbered as spec/opcode_table.json numbers them, stored where the
next step fetches. It stands for the load of a program from outside (log 16). -/
def State.withFetchWord (s : State) (nbits w : Nat) : State := placeWord s (BitVec.ofNat 16 (w % 2 ^ nbits))

end Sys2Proof.Machine
end

