-- ==== Sys2Proof/Safety.lean ====
section
/-! DEFINITION. The terms in which claims speak of a run: the invariant of every reachable state, rest, and, for the
frames, what each instruction writes (spec 10_state.md R20, R22, R24, R27, R28) and the one fault it can raise
(60_exceptions.md R231, R237). -/

namespace Sys2Proof.Machine

/-- What holds of every reachable state: memory in its canonical form, `pc` in its range (R27), and every live return
address one that a `CALL` pushed (R27). -/
abbrev State.Inv (s : State) : Prop :=
  s.MemWf ∧ s.pc.toNat ≤ 0x10FE ∧ ∀ k : Fin 16, k.val < s.depth.val → s.stack[k].toNat ≤ 0x1000

/-- The word at an address, big-endian (20_memory.md R62). -/
def State.wordAt (s : State) (a : Nat) : Word := wordOfBytes (s.byte a) (s.byte (a + 1))

/-- At rest (70_reset_and_hazards.md R274): no fault, and the word at `pc` is a jump to `pc`. -/
abbrev State.AtRest (s : State) : Prop :=
  s.fault = none ∧ s.pc.toNat ≤ 0xFFE ∧ (s.wordAt s.pc.toNat).toNat = 0x1000 + s.pc.toNat

/-- The six instructions that write `VF` as a flag (R22). -/
def writesFlag : Instr → Bool
  | .addVxVy _ _ | .subVxVy _ _ | .subnVxVy _ _ | .shrVx _ _ | .shlVx _ _ | .drw _ _ _ => true
  | _ => false

/-- The two words whose final `VF` depends on `VF_DEST_ORDER` (41_alu.md R152): a shift of `VF`. -/
def shiftsVf : Instr → Bool
  | .shrVx x _ | .shlVx x _ => decide (x = vf)
  | _ => false

/-- Whether an instruction names a V register as its destination, or writes it as a flag. -/
def writesReg (i : Instr) (z : Reg) : Bool :=
  match i with
  | .ldVxKk x _ | .addVxKk x _ | .ldVxVy x _ | .orVxVy x _ | .andVxVy x _ | .xorVxVy x _ | .rnd x _ | .ldVxDT x
  | .ldVxK x => decide (z = x)
  | .addVxVy x _ | .subVxVy x _ | .shrVx x _ | .subnVxVy x _ | .shlVx x _ => decide (z = x ∨ z = vf)
  | .drw _ _ _ => decide (z = vf)
  | .ldVxMem x => decide (z.val ≤ x.val)
  | _ => false

/-- How many bytes an instruction stores, from `I` on. -/
def storedBytes : Instr → Nat
  | .ldBVx _ => 3
  | .ldMemVx x => x.val + 1
  | _ => 0

/-- How many bytes of data an instruction touches, from `I` on (42_index_memory.md R176). -/
def touchedBytes : Instr → Nat
  | .ldBVx _ => 3
  | .ldMemVx x | .ldVxMem x => x.val + 1
  | .drw _ _ n => n.val
  | _ => 0

/-- Whether an instruction writes `I` (R24). -/
def writesI : Instr → Bool
  | .ldI _ | .addIVx _ | .ldFVx _ => true
  | _ => false

/-- Whether an instruction changes the `pc` that the fetch advanced (R26). -/
def movesPc : Instr → Bool
  | .ret | .jp _ | .call _ | .jpV0 _ | .seVxKk _ _ | .sneVxKk _ _ | .seVxVy _ _ | .sneVxVy _ _ | .skp _ | .sknp _
  | .ldVxK _ => true
  | _ => false

/-- The one cause of a fault that an instruction can raise, if it can raise one (R237). -/
def faultOf : Instr → Option FaultCause
  | .sys _ => some .illegalOpcode
  | .call _ => some .stackOverflow
  | .ret => some .stackUnderflow
  | .drw _ _ _ | .ldBVx _ | .ldMemVx _ | .ldVxMem _ => some .addressOutOfRange
  | .skp _ | .sknp _ => some .keyIndexOutOfRange
  | _ => none

/-- Whether the sprite that `Dxyn` draws has a 1 bit over the pixel `(cx, cy)` (43_display.md R191): row `r` is the byte at
`I + r`, and the origin is the pair of values of `V[x]` and `V[y]`. -/
abbrev spriteCovers (s : State) (x y : Reg) (n : Fin 16) (cx : Fin 64) (cy : Fin 32) : Prop :=
  ∃ r < n.val, ∃ c < 8, spriteBit s.config.spriteBitOrder (s.byte (s.I.toNat + r)) c = true ∧
    ((s.reg x).toNat + c) % 64 = cx.val ∧ ((s.reg y).toNat + r) % 32 = cy.val

end Sys2Proof.Machine
end

