-- ==== Sys2Proof/Certificates/Slice0/Obligations.lean ====
section
/-! DEFINITION. The statements for the provers, in the order of the spec's files: reset and the invariant, encoding, the
cycle, control transfer, arithmetic, index and memory, display, keys and timers, faults, the interface, the whole machine. -/

open Sys2Proof Sys2Proof.Machine

/-! ### Reset, and the invariant of every step -/

/-- 10_state.md R40 as far as it is about the spec's own state, for every value of the open parameters: the first 80 bytes
are whatever `FONT` is (00_scope.md R6, decision D9). `State.reset` is the case of the decided setting, whose font is the
table of R36 (log 4). The released keys are the spec's inference and the empty latch its decision D4 (log 14). -/
def Obligations.ResetLeavesTheListedValues : Prop :=
  (∀ c : Config.Params, let s := resetUnder c
    (∀ (a : Nat) (h : a < 80), s.byte a = c.font[a]) ∧ (∀ a, 80 ≤ a → a ≤ 0xFFF → s.byte a = 0) ∧
    (∀ x : Reg, s.reg x = 0) ∧ s.I = 0 ∧ s.pc = 0x200 ∧ (∀ k : Fin 16, s.stack[k] = 0) ∧ s.depth = 0 ∧
    (∀ cx cy, s.fb.pixel cx cy = false) ∧ s.DT = 0 ∧ s.ST = 0 ∧ (∀ k : Fin 16, s.key[k] = false) ∧ s.fault = none) ∧
  State.reset = resetUnder Config.Params.decided ∧ Config.Params.decided.font.toList = fontBytes

/-- The invariant holds at reset, for every value of the open parameters. -/
def Obligations.InvariantHoldsAtReset : Prop := State.reset.Inv ∧ ∀ c : Config.Params, (resetUnder c).Inv

/-- 10_state.md R27 and R29 (the spec's inference): from any state with canonical memory, `pc` in its range and every live
return address one that a `CALL` pushed, every step, whatever operation it performs, leads to such a state. -/
def Obligations.EveryStepKeepsTheInvariant : Prop :=
  ∀ s t : State, s.Inv → step s = .next t → t.Inv

/-- 70_reset_and_hazards.md R270, 10_state.md R41, 60_exceptions.md R240: `Reset` gives every component its reset value
whatever the state before, a faulted one included. The setting, `FONT` in it, the draws and the lined-up operations stay (log 25). -/
def Obligations.ResetForgetsTheStateBefore : Prop :=
  ∀ (s : State) (rest : List Operation), s.pending = .reset :: rest →
    step s = .next { resetUnder s.config with draws := s.draws, pending := rest }

/-! ### Encoding -/

/-- 30_encoding.md R103: decoding the word of a well-formed instruction gives it back, every field at every value. -/
def Obligations.DecodeOfEncodeIsTheInstruction : Prop :=
  ∀ i : Instr, WellFormed i = true → decodeWord (encode i) = .ok i

/-- 30_encoding.md R103: every word that decodes is the word of the instruction it decodes to, which is well-formed. -/
def Obligations.EncodeOfDecodeIsTheWord : Prop :=
  ∀ (op : Word) (i : Instr), decodeWord op = .ok i → WellFormed i = true ∧ encode i = op

/-- 30_encoding.md R94 and R95 are two descriptions of one decoder: the algorithm gives row `k` of the table exactly when
`k` is the first row whose mask and match select the word, and rejects exactly the words that no row selects. -/
def Obligations.DecoderAgreesWithTheOpcodeTable : Prop :=
  ∀ op : Word, selectRow op = match decodeWord op with
    | .ok i => some (rowIndex i)
    | .error _ => none

/-- 30_encoding.md R94: no word selects two rows, except that the words of `00E0` and `00EE` also select `0nnn`. -/
def Obligations.RowsAreDisjointExceptSys : Prop :=
  opcodeTable.length = 35 ∧
  ∀ (op : Word) (j k : Nat) (r q : OpcodeRow), opcodeTable[j]? = some r → opcodeTable[k]? = some q → j < k →
    r.selects op = true → q.selects op = true → k = 2 ∧ ((j = 0 ∧ op = 0x00E0) ∨ (j = 1 ∧ op = 0x00EE))

/-- 30_encoding.md R96: the words that decode to no instruction are those of the five listed spaces, by their fields. -/
def Obligations.RejectedWordsAreTheListedSpaces : Prop :=
  ∀ op : Word, (∃ r, decodeWord op = .error r) ↔
    (fieldTop op = 0x5 ∧ fieldN op ≠ 0) ∨ (fieldTop op = 0x8 ∧ 7 < (fieldN op).val ∧ fieldN op ≠ 0xE) ∨
    (fieldTop op = 0x9 ∧ fieldN op ≠ 0) ∨
    (fieldTop op = 0xE ∧ (fieldKk op).toNat ∉ [0x9E, 0xA1]) ∨
    (fieldTop op = 0xF ∧ (fieldKk op).toNat ∉ [0x07, 0x0A, 0x15, 0x18, 0x1E, 0x29, 0x33, 0x55, 0x65])

/-- Words written out from 30_encoding.md R92 and R94, one or more of every family (top nibble, R91), decode to the
instructions they stand for; a word of an illegal space is rejected. -/
def Obligations.WrittenOutWordsDecode : Prop :=
  decodeWord 0x00E0 = .ok .cls ∧ decodeWord 0x00EE = .ok .ret ∧ decodeWord 0x0123 = .ok (.sys 0x123) ∧
  decodeWord 0x1204 = .ok (.jp 0x204) ∧ decodeWord 0x220A = .ok (.call 0x20A) ∧
  decodeWord 0x3A42 = .ok (.seVxKk 0xA 0x42) ∧ decodeWord 0x4211 = .ok (.sneVxKk 0x2 0x11) ∧
  decodeWord 0x5340 = .ok (.seVxVy 0x3 0x4) ∧ decodeWord 0x60F1 = .ok (.ldVxKk 0x0 0xF1) ∧
  decodeWord 0x71FF = .ok (.addVxKk 0x1 0xFF) ∧ decodeWord 0x8344 = .ok (.addVxVy 0x3 0x4) ∧
  decodeWord 0x812E = .ok (.shlVx 0x1 0x2) ∧ decodeWord 0x9340 = .ok (.sneVxVy 0x3 0x4) ∧
  decodeWord 0xA300 = .ok (.ldI 0x300) ∧ decodeWord 0xB300 = .ok (.jpV0 0x300) ∧
  decodeWord 0xC30F = .ok (.rnd 0x3 0x0F) ∧ decodeWord 0xD125 = .ok (.drw 0x1 0x2 0x5) ∧
  decodeWord 0xE5A1 = .ok (.sknp 0x5) ∧ decodeWord 0xFF55 = .ok (.ldMemVx 0xF) ∧
  decodeWord 0x8128 = .error .illegal8

/-! ### The cycle -/

/-- 40_flow.md R120: where a cycle is next and enabled, and the word at `pc` decodes to `i`, a step is `i` executed with `pc`
already advanced by 2. That a step with nothing lined up is a cycle, and that the first cycle ends the boot, are the
model's (log 6, 7). -/
def Obligations.StepRunsTheDecodedInstruction : Prop :=
  ∀ (s : State) (i : Instr) (rest : List Operation),
    s.pending = .cycle :: rest ∨ (s.pending = [] ∧ rest = []) → s.fault = none → s.pc.toNat ≤ 0xFFE →
    decodeWord (s.wordAt s.pc.toNat) = .ok i →
    step s = exec i { s with pc := s.pc + 2, session := .running, pending := rest }

/-- 60_exceptions.md R232: a fetched word that decodes to no instruction latches `IllegalOpcode(op, a)` with `pc = a + 2`
(R239, D5, log 13), nothing else of the spec's state changed. The latch is decision D4 (log 1); that the cycle ends the boot
(`session`) is the model's own (log 7). -/
def Obligations.IllegalWordLatchesIllegalOpcode : Prop :=
  ∀ s : State, s.fault = none → s.pc.toNat ≤ 0xFFE → (∃ r, decodeWord (s.wordAt s.pc.toNat) = .error r) →
    cycle s = .next { s with
      pc := s.pc + 2
      session := .running
      fault := some ⟨.illegalOpcode, some (s.wordAt s.pc.toNat), s.pc, none⟩ }

/-- 20_memory.md R65 (decision D2, log 11): a fetch that would touch an address above 0xFFF latches `AddressOutOfRange` with no
word and the lowest such address (log 1), and leaves `pc` (D5, log 13). That the cycle ends the boot (`session`) is the
model's own (log 7). -/
def Obligations.FetchOutsideMemoryLatchesAddressOutOfRange : Prop :=
  ∀ s : State, s.fault = none → 0xFFE < s.pc.toNat →
    cycle s = .next { s with
      session := .running
      fault := some ⟨.addressOutOfRange, none, s.pc, some (if s.pc.toNat = 0xFFF then 0x1000 else s.pc.toNat)⟩ }

/-! ### Control transfer -/

/-- 40_flow.md R123, R129: `JP nnn` puts `nnn` into `pc`; `JP V0, nnn` puts `nnn + V0`, not reduced. Nothing else changes. -/
def Obligations.JumpsReplaceThePc : Prop :=
  ∀ (nnn : BitVec 12) (s : State),
    (∃ t, exec (.jp nnn) s = .next t ∧ t.pc.toNat = nnn.toNat ∧ t = { s with pc := t.pc }) ∧
    (∃ t, exec (.jpV0 nnn) s = .next t ∧ t.pc.toNat = nnn.toNat + (s.reg 0).toNat ∧ t = { s with pc := t.pc })

/-- 40_flow.md R124: below depth 16 `CALL` pushes the advanced `pc` into the slot `depth`, raises the depth and jumps; at depth
16 it latches `StackOverflow` and changes nothing else. Slot numbers are decision D11 (log 10), the latch is D4 (log 1). -/
def Obligations.CallPushesThePcAndJumps : Prop :=
  ∀ (nnn : BitVec 12) (s : State),
    (s.depth.val < 16 → ∃ t, exec (.call nnn) s = .next t ∧ t.pc.toNat = nnn.toNat ∧ t.depth.val = s.depth.val + 1 ∧
      (∀ k : Fin 16, t.stack[k] = if k.val = s.depth.val then s.pc else s.stack[k]) ∧
      t = { s with pc := t.pc, stack := t.stack, depth := t.depth }) ∧
    (s.depth.val = 16 → exec (.call nnn) s =
      .next { s with fault := some ⟨.stackOverflow, some (encode (.call nnn)), s.pc - 2, none⟩ })

/-- 40_flow.md R121: above depth 0 `RET` lowers the depth and takes `pc` from the slot at the new depth, which keeps its
contents; at depth 0 it latches `StackUnderflow` and changes nothing else (D11, D4; log 10, 1). -/
def Obligations.ReturnPopsThePc : Prop :=
  ∀ s : State,
    (∀ d : Fin 16, s.depth.val = d.val + 1 → ∃ t, exec .ret s = .next t ∧ t.pc = s.stack[d] ∧ t.depth.val = d.val ∧
      t = { s with pc := t.pc, depth := t.depth }) ∧
    (s.depth.val = 0 → exec .ret s = .next { s with fault := some ⟨.stackUnderflow, some 0x00EE, s.pc - 2, none⟩ })

/-- 90_conflicts.md C1, 40_flow.md R121: a `RET` right after a `CALL` restores the `pc` the `CALL` saw and the depth; only the
slot that was pushed differs from before. -/
def Obligations.ReturnUndoesCall : Prop :=
  ∀ (nnn : BitVec 12) (s : State), s.depth.val < 16 →
    ∃ t u, exec (.call nnn) s = .next t ∧ exec .ret t = .next u ∧ u = { s with stack := u.stack } ∧
      ∀ k : Fin 16, k.val ≠ s.depth.val → u.stack[k] = s.stack[k]

/-- 40_flow.md R125 to R128: each skip adds 2 to the advanced `pc` exactly when its condition holds; nothing else changes. -/
def Obligations.SkipsTestTheirCondition : Prop :=
  ∀ (x y : Reg) (kk : Byte) (s : State),
    exec (.seVxKk x kk) s = .next { s with pc := if s.reg x = kk then s.pc + 2 else s.pc } ∧
    exec (.sneVxKk x kk) s = .next { s with pc := if s.reg x = kk then s.pc else s.pc + 2 } ∧
    exec (.seVxVy x y) s = .next { s with pc := if s.reg x = s.reg y then s.pc + 2 else s.pc } ∧
    exec (.sneVxVy x y) s = .next { s with pc := if s.reg x = s.reg y then s.pc else s.pc + 2 }

/-- 40_flow.md R122: `SYS` does nothing but latch `IllegalOpcode` with its word and address. Taking the fault is its whole
effect; the latch is decision D4 (log 1). -/
def Obligations.SysOnlyLatchesIllegalOpcode : Prop :=
  ∀ (nnn : BitVec 12) (s : State), exec (.sys nnn) s =
    .next { s with fault := some ⟨.illegalOpcode, some (encode (.sys nnn)), s.pc - 2, none⟩ }

/-- 10_state.md R26, its last rows: every instruction but the jumps, call, return, skips and the key wait leaves `pc` where the
fetch put it, and so does every instruction that faults. -/
def Obligations.OtherInstructionsLeaveTheAdvancedPc : Prop :=
  ∀ (i : Instr) (s t : State), exec i s = .next t → movesPc i = false ∨ t.fault ≠ s.fault → t.pc = s.pc

/-! ### Register load, arithmetic, logic, shift, random -/

/-- 41_alu.md R140 to R145: the destination takes the value the rule gives, every other register, `VF` among them unless it is
the destination, and everything else stays. -/
def Obligations.LoadsAndLogicWriteTheirDestination : Prop :=
  ∀ (x y : Reg) (kk : Byte) (s : State) (i : Instr) (v : Nat),
    (i, v) ∈ [(Instr.ldVxKk x kk, kk.toNat), (.addVxKk x kk, ((s.reg x).toNat + kk.toNat) % 256),
      (.ldVxVy x y, (s.reg y).toNat), (.orVxVy x y, (s.reg x).toNat ||| (s.reg y).toNat),
      (.andVxVy x y, (s.reg x).toNat &&& (s.reg y).toNat), (.xorVxVy x y, (s.reg x).toNat ^^^ (s.reg y).toNat)] →
    ∃ t, exec i s = .next t ∧ (t.reg x).toNat = v ∧ (∀ z, z ≠ x → t.reg z = s.reg z) ∧ t = { s with V := t.V }

/-- 41_alu.md R146: the sum modulo 256, then the carry into `VF`, from the operands as they were; with `x = 0xF` the carry
survives. -/
def Obligations.AddWritesSumThenCarry : Prop :=
  ∀ (x y : Reg) (s : State), ∃ t, exec (.addVxVy x y) s = .next t ∧
    (x ≠ vf → (t.reg x).toNat = ((s.reg x).toNat + (s.reg y).toNat) % 256) ∧
    (t.reg vf).toNat = (if 255 < (s.reg x).toNat + (s.reg y).toNat then 1 else 0) ∧
    (∀ z, z ≠ x → z ≠ vf → t.reg z = s.reg z) ∧ t = { s with V := t.V }

/-- 41_alu.md R147, R149: the difference modulo 256, then NOT borrow into `VF`, where equality is no borrow; with `x = 0xF` the
flag survives. -/
def Obligations.SubtractsWriteDifferenceThenNoBorrow : Prop :=
  ∀ (x y : Reg) (s : State) (i : Instr) (minuend subtrahend : Nat),
    (i, minuend, subtrahend) ∈ [(Instr.subVxVy x y, (s.reg x).toNat, (s.reg y).toNat),
      (.subnVxVy x y, (s.reg y).toNat, (s.reg x).toNat)] →
    ∃ t, exec i s = .next t ∧
      (x ≠ vf → (t.reg x).toNat = if subtrahend ≤ minuend then minuend - subtrahend else minuend + 256 - subtrahend) ∧
      (t.reg vf).toNat = (if subtrahend ≤ minuend then 1 else 0) ∧
      (∀ z, z ≠ x → z ≠ vf → t.reg z = s.reg z) ∧ t = { s with V := t.V }

/-- 41_alu.md R148, R150, R152: one place right or left, the bit shifted out into `VF`, `y` unused. Where the destination is
`VF` the setting `VF_DEST_ORDER` (decision D7, log 3) says which write survives; both settings are stated. -/
def Obligations.ShiftsMoveOnePlace : Prop :=
  ∀ (x y : Reg) (s : State) (i : Instr) (result flag : Nat),
    (i, result, flag) ∈ [(Instr.shrVx x y, (s.reg x).toNat / 2, (s.reg x).toNat % 2),
      (.shlVx x y, 2 * (s.reg x).toNat % 256, (s.reg x).toNat / 128)] →
    ∃ t, exec i s = .next t ∧ (x ≠ vf → (t.reg x).toNat = result ∧ (t.reg vf).toNat = flag) ∧
      (x = vf → (t.reg vf).toNat = if s.config.vfDestOrder = .tableOrder then result else flag) ∧
      (∀ z, z ≠ x → z ≠ vf → t.reg z = s.reg z) ∧ t = { s with V := t.V }

/-- 30_encoding.md R99: a shift reads no register but `x`, whatever its `y`: with another `y`, and another value in any
register but `x`, the outcome is the same but for that register, and altogether the same where that register is `VF`,
which the shift overwrites. -/
def Obligations.ShiftsDoNotReadVy : Prop :=
  ∀ (x y z w : Reg) (v : Byte) (s : State), w ≠ x →
    ∃ t u, exec (.shrVx x y) s = .next t ∧
      exec (.shrVx x z) (s.setReg w v) = .next (if w = vf then t else t.setReg w v) ∧
      exec (.shlVx x y) s = .next u ∧
      exec (.shlVx x z) (s.setReg w v) = .next (if w = vf then u else u.setReg w v)

/-- 41_alu.md R152 (decision D7, log 3): `VF_DEST_ORDER` matters to no instruction but a shift whose destination is `VF`. -/
def Obligations.VfDestOrderMattersOnlyToShiftsOfVf : Prop :=
  ∀ (i : Instr) (s t : State) (order : Config.VfDestOrder), shiftsVf i = false → exec i s = .next t →
    exec i { s with config := { s.config with vfDestOrder := order } } =
      .next { t with config := { t.config with vfDestOrder := order } }

/-- 41_alu.md R151: `kk AND` the byte drawn, for every byte the random source may give (log 5): no bit outside `kk` is set,
`kk = 0` gives 0 and `kk = 0xFF` gives the byte itself; one byte is consumed. -/
def Obligations.RandomByteIsMasked : Prop :=
  ∀ (x : Reg) (kk : Byte) (s : State), ∃ t, exec (.rnd x kk) s = .next t ∧
    t.reg x = kk &&& Config.randByte s.draws ∧ t.reg x &&& ~~~kk = 0 ∧ (kk = 0x00 → t.reg x = 0) ∧
    (kk = 0xFF → t.reg x = Config.randByte s.draws) ∧ (∀ z, z ≠ x → t.reg z = s.reg z) ∧
    t = { s with V := t.V, draws := s.draws + 1 }

/-- 10_state.md R22: the six flag instructions leave 0x00 or 0x01 in `VF` (a shift of `VF` itself apart, R152), and no other
instruction writes `VF` unless it names it as its destination. A fault writes nothing. -/
def Obligations.VfIsAFlagOfSixInstructions : Prop :=
  ∀ (i : Instr) (s t : State), exec i s = .next t →
    (writesFlag i = true → shiftsVf i = false → t.fault = none → t.reg vf = 0x00 ∨ t.reg vf = 0x01) ∧
    (writesFlag i = false → writesReg i vf = false → t.reg vf = s.reg vf)

/-! ### Index register and memory -/

/-- 42_index_memory.md R170, R171, R172: `nnn`; the sum modulo 65536; the literal product by 5 (decision D10, log 20). -/
def Obligations.IndexInstructionsWriteI : Prop :=
  ∀ (x : Reg) (nnn : BitVec 12) (s : State) (i : Instr) (v : Nat),
    (i, v) ∈ [(Instr.ldI nnn, nnn.toNat), (.addIVx x, (s.I.toNat + (s.reg x).toNat) % 65536),
      (.ldFVx x, 5 * (s.reg x).toNat)] →
    ∃ t, exec i s = .next t ∧ t.I.toNat = v ∧ t = { s with I := t.I }

/-- 42_index_memory.md R173: hundreds, tens and ones at `I`, `I + 1`, `I + 2`; every other byte and everything else stays. -/
def Obligations.BcdStoresThreeDigits : Prop :=
  ∀ (x : Reg) (s : State), s.MemWf → s.I.toNat ≤ 0xFFD →
    ∃ t, exec (.ldBVx x) s = .next t ∧
      (t.byte s.I.toNat).toNat = (s.reg x).toNat / 100 ∧
      (t.byte (s.I.toNat + 1)).toNat = (s.reg x).toNat / 10 % 10 ∧
      (t.byte (s.I.toNat + 2)).toNat = (s.reg x).toNat % 10 ∧
      (∀ a, a < s.I.toNat ∨ s.I.toNat + 3 ≤ a → t.byte a = s.byte a) ∧ t = { s with mem := t.mem }

/-- 42_index_memory.md R174: `V[k]` at `I + k` for `k = 0..x`; every other byte, `I` and the registers stay. -/
def Obligations.BlockStoreCopiesRegisters : Prop :=
  ∀ (x : Reg) (s : State), s.MemWf → s.I.toNat + x.val ≤ 0xFFF →
    ∃ t, exec (.ldMemVx x) s = .next t ∧
      (∀ k : Reg, k ≤ x → t.byte (s.I.toNat + k.val) = s.reg k) ∧
      (∀ a, a < s.I.toNat ∨ s.I.toNat + x.val < a → t.byte a = s.byte a) ∧ t = { s with mem := t.mem }

/-- 42_index_memory.md R175: `V[k]` from `I + k` for `k = 0..x`; the other registers, `I` and memory stay. -/
def Obligations.BlockLoadCopiesMemory : Prop :=
  ∀ (x : Reg) (s : State), s.I.toNat + x.val ≤ 0xFFF →
    ∃ t, exec (.ldVxMem x) s = .next t ∧ (∀ k : Reg, k ≤ x → t.reg k = s.byte (s.I.toNat + k.val)) ∧
      (∀ k : Reg, x < k → t.reg k = s.reg k) ∧ t = { s with V := t.V }

/-- 42_index_memory.md R175, its round trip: a store, then any values in the registers, then a load with the same `x`, restores
`V0..Vx` and leaves the registers above as they were put. -/
def Obligations.BlockStoreThenLoadRestores : Prop :=
  ∀ (x : Reg) (s : State) (r : Vector Byte 16), s.MemWf → s.I.toNat + x.val ≤ 0xFFF →
    ∃ t u, exec (.ldMemVx x) s = .next t ∧ exec (.ldVxMem x) (t.setV r) = .next u ∧
      (∀ k : Reg, u.reg k = if k ≤ x then s.reg k else r[k]) ∧ u.mem = t.mem ∧ u.I = s.I

/-- 42_index_memory.md R176 (decisions D2, D5; log 11, 13): an instruction that would touch an address above 0xFFF latches
`AddressOutOfRange` with the lowest such address and changes nothing else: no byte, register or pixel. -/
def Obligations.DataOutsideMemoryLatchesAddressOutOfRange : Prop :=
  ∀ (i : Instr) (s : State), 0 < touchedBytes i → 0xFFF < s.I.toNat + (touchedBytes i - 1) →
    exec i s = .next { s with
      fault := some ⟨.addressOutOfRange, some (encode i), s.pc - 2, some (max s.I.toNat 0x1000)⟩ }

/-- 20_memory.md R66: a byte read answers the byte or the address that faults; a 2-byte read is big-endian and names the first
address of the two that is out of range. -/
def Obligations.MemReadChecksItsAddress : Prop :=
  ∀ (font : Config.Font) (m : Memory) (a : Nat),
    memRead font m a = (if 0xFFF < a then .error a else .ok (m.read font a)) ∧
    (a ≤ 0xFFE → ∃ w, memRead16 font m a = .ok w ∧
      w.toNat = 256 * (m.read font a).toNat + (m.read font (a + 1)).toNat) ∧
    (a = 0xFFF → memRead16 font m a = .error 0x1000) ∧ (0xFFF < a → memRead16 font m a = .error a)

/-- 20_memory.md R67: a write changes exactly one byte, and none where it faults; the canonical form is kept. -/
def Obligations.MemWriteChangesOneByte : Prop :=
  ∀ (font : Config.Font) (m : Memory) (a : Nat) (v : Byte), m.wf font = true →
    (0xFFF < a → memWrite font m a v = .error a) ∧
    (a ≤ 0xFFF → ∃ m', memWrite font m a v = .ok m' ∧ m'.wf font = true ∧ m'.read font a = v ∧
      ∀ b, b ≠ a → m'.read font b = m.read font b)

/-- 20_memory.md R63, R71: a run of bytes stored is its `MemWrite`s in ascending order, and the range check made before it
names the address at which the first of them that faults would fault (R176). -/
def Obligations.BlockStoreIsByteWritesInOrder : Prop :=
  ∀ (font : Config.Font) (vs : List Byte) (m : Memory) (base : Nat),
    vs.zipIdx.foldlM (fun n (c : Byte × Nat) => memWrite font n (base + c.2) c.1) m =
      match blockFault base vs.length with
      | none => .ok (storeBlock font m base vs)
      | some e => .error e

/-- 20_memory.md R76 (decision D16, log 21): bytes that `Fx55` puts at `pc` are the word the very next fetch reads, the first
of them its high byte. -/
def Obligations.StoreIsSeenByTheNextFetch : Prop :=
  ∀ (x : Reg) (s t : State), s.MemWf → 1 ≤ x.val → s.I = s.pc → s.I.toNat + x.val ≤ 0xFFF →
    exec (.ldMemVx x) s = .next t →
    ∃ w, fetch t = .ok w ∧ w.toNat = 256 * (s.reg 0).toNat + (s.reg 1).toNat

/-! ### Display -/

/-- 43_display.md R190: every pixel off, everything else, `VF` among it, unchanged. -/
def Obligations.ClearTurnsEveryPixelOff : Prop :=
  ∀ s : State, ∃ t, exec .cls s = .next t ∧ (∀ cx cy, t.fb.pixel cx cy = false) ∧ t = { s with fb := t.fb }

/-- 43_display.md R191: every pixel is XORed with the sprite's bit over it, with wrapping in both directions; `VF` ends as 1 when
a lit pixel lay under a 1 bit and as 0 otherwise; `n = 0` reads nothing and cannot fault. Operands are read before `VF` is
written. The bit order is a parameter of the state (decision D8, log 2). -/
def Obligations.DrawXorsTheSprite : Prop :=
  ∀ (x y : Reg) (n : Fin 16) (s : State), n.val = 0 ∨ s.I.toNat + (n.val - 1) ≤ 0xFFF →
    ∃ t, exec (.drw x y n) s = .next t ∧
      (∀ cx cy, (spriteCovers s x y n cx cy → t.fb.pixel cx cy = !s.fb.pixel cx cy) ∧
        (¬spriteCovers s x y n cx cy → t.fb.pixel cx cy = s.fb.pixel cx cy)) ∧
      ((∃ cx cy, spriteCovers s x y n cx cy ∧ s.fb.pixel cx cy = true) → t.reg vf = 0x01) ∧
      ((∀ cx cy, spriteCovers s x y n cx cy → s.fb.pixel cx cy = false) → t.reg vf = 0x00) ∧
      (∀ z, z ≠ vf → t.reg z = s.reg z) ∧ t = { s with fb := t.fb, V := t.V }

/-- 43_display.md R191 (e), as its operation gives it (log 26): the same sprite drawn again at the same place restores the
framebuffer, and the second draw sets `VF` exactly when some pixel under a 1 bit was off before the first. -/
def Obligations.DrawingTwiceRestoresTheDisplay : Prop :=
  ∀ (x y : Reg) (n : Fin 16) (s : State), x ≠ vf → y ≠ vf → n.val = 0 ∨ s.I.toNat + (n.val - 1) ≤ 0xFFF →
    ∃ t u, exec (.drw x y n) s = .next t ∧ exec (.drw x y n) t = .next u ∧ u.fb = s.fb ∧
      ((∃ cx cy, spriteCovers s x y n cx cy ∧ s.fb.pixel cx cy = false) → u.reg vf = 0x01) ∧
      ((∀ cx cy, spriteCovers s x y n cx cy → s.fb.pixel cx cy = true) → u.reg vf = 0x00)

/-- 43_display.md R191 (e), the second half of its sentence as it is written: the second draw sets `VF` whenever the sprite has
a 1 bit. It is expected to FAIL: where every pixel under a 1 bit was lit before, the first draw turns them all off and the
second turns none off. The rule's own operation is what the model follows (log 26). -/
def Obligations.SecondDrawHitsWheneverTheSpriteHasABit : Prop :=
  ∀ (x y : Reg) (n : Fin 16) (s t u : State), x ≠ vf → y ≠ vf → exec (.drw x y n) s = .next t →
    exec (.drw x y n) t = .next u → u.fault = none → (∃ cx cy, spriteCovers s x y n cx cy) → u.reg vf = 0x01

/-! ### Keys and timers -/

/-- 44_keys_timers.md R210, R211: for a key code up to 0x0F exactly one of the two skips, by the level of that key now; above
it (decision D3, log 12) both latch `KeyIndexOutOfRange` with the value and change nothing else. -/
def Obligations.KeySkipsTestTheLatch : Prop :=
  ∀ (x : Reg) (s : State),
    (∀ k : Fin 16, (s.reg x).toNat = k.val →
      exec (.skp x) s = .next { s with pc := if s.key[k] = true then s.pc + 2 else s.pc } ∧
      exec (.sknp x) s = .next { s with pc := if s.key[k] = true then s.pc else s.pc + 2 }) ∧
    (15 < (s.reg x).toNat →
      exec (.skp x) s = .next { s with
        fault := some ⟨.keyIndexOutOfRange, some (encode (.skp x)), s.pc - 2, some (s.reg x).toNat⟩ } ∧
      exec (.sknp x) s = .next { s with
        fault := some ⟨.keyIndexOutOfRange, some (encode (.sknp x)), s.pc - 2, some (s.reg x).toNat⟩ })

/-- 44_keys_timers.md R213: with no key pressed `pc` goes back by 2 and nothing else changes; otherwise the least pressed key
goes into `V[x]` and the advance stands. -/
def Obligations.KeyWaitTakesTheLeastPressedKey : Prop :=
  ∀ (x : Reg) (s : State),
    ((∀ k : Fin 16, s.key[k] = false) → exec (.ldVxK x) s = .next { s with pc := s.pc - 2 }) ∧
    (∀ k : Fin 16, s.key[k] = true → (∀ j : Fin 16, j < k → s.key[j] = false) →
      ∃ t, exec (.ldVxK x) s = .next t ∧ (t.reg x).toNat = k.val ∧ (∀ z, z ≠ x → t.reg z = s.reg z) ∧
        t = { s with V := t.V })

/-- 44_keys_timers.md R213 (a): a step that waits for a key is a stutter: the state after it is the state before it. (Only the
model's note that a cycle has run, `session`, may differ; log 7.) -/
def Obligations.WaitingForAKeyIsAStutter : Prop :=
  ∀ (x : Reg) (s : State), s.pending = [] → s.fault = none → s.pc.toNat ≤ 0xFFE →
    s.wordAt s.pc.toNat = encode (.ldVxK x) → (∀ k : Fin 16, s.key[k] = false) →
    step s = .next { s with session := .running }

/-- 44_keys_timers.md R212, R214, R215: `V[x]` from `DT`, `DT` from `V[x]`, `ST` from `V[x]`; nothing else changes. -/
def Obligations.TimerInstructionsTransfer : Prop :=
  ∀ (x : Reg) (s : State),
    (∃ t, exec (.ldVxDT x) s = .next t ∧ t.reg x = s.DT ∧ (∀ z, z ≠ x → t.reg z = s.reg z) ∧ t = { s with V := t.V }) ∧
    exec (.ldDTVx x) s = .next { s with DT := s.reg x } ∧ exec (.ldSTVx x) s = .next { s with ST := s.reg x }

/-- 10_state.md R31: no instruction reads `ST`: with another value in it every instruction has the same outcome, but for that
value, and `Fx18` the same outcome altogether. -/
def Obligations.NoInstructionReadsTheSoundTimer : Prop :=
  ∀ (i : Instr) (s t : State) (v : Byte), exec i s = .next t →
    exec i { s with ST := v } = .next (match i with | .ldSTVx _ => t | _ => { t with ST := v })

/-! ### Faults -/

/-- 60_exceptions.md R237, R239 (decision D5, log 13): an instruction that faults raises its own cause only, records its own
word and the address it was fetched from, and changes nothing but the latch. -/
def Obligations.AFaultChangesOnlyTheLatch : Prop :=
  ∀ (i : Instr) (s t : State) (r : FaultRecord), s.fault = none → exec i s = .next t → t.fault = some r →
    t = { s with fault := some r } ∧ faultOf i = some r.cause ∧ r.op = some (encode i) ∧ r.addr = s.pc - 2

/-- 60_exceptions.md R238, R239 (decisions D4, D5; log 1, 13): whatever faults in a cycle, the record's address is the one the
word was fetched from and its word the one fetched, absent in a fetch fault; `pc` has advanced unless the fetch itself
faulted; nothing else of the spec's state changed. That the cycle ends the boot (`session`) is the model's own (log 7). -/
def Obligations.FaultRecordNamesTheFetchedWord : Prop :=
  ∀ (s t : State) (r : FaultRecord), s.fault = none → cycle s = .next t → t.fault = some r →
    r.addr = s.pc ∧ t = { s with fault := some r, pc := t.pc, session := .running } ∧
    (s.pc.toNat ≤ 0xFFE → r.op = some (s.wordAt s.pc.toNat) ∧ t.pc = s.pc + 2) ∧
    (0xFFE < s.pc.toNat → r.op = none ∧ t.pc = s.pc)

/-- 60_exceptions.md R240, R253 (decisions D4, D19; log 1, 8): while the latch is set `Cycle` has no step, and no other operation
but `Reset` has one. -/
def Obligations.AFaultedMachineTakesNoStep : Prop :=
  ∀ (s : State) (r : FaultRecord), s.fault = some r →
    (s.pending = [] → step s = .fault (.engineStopped r)) ∧
    (∀ (op : Operation) (rest : List Operation), s.pending = op :: rest → op ≠ .reset → ∀ t, step s ≠ .next t)

/-! ### The interface -/

/-- The scheduling of the model (log 6): with no fault latched, a step performs the oldest operation lined up and takes it off
the list, and is a `Cycle` where none is; a rejected one changes nothing else (60_exceptions.md R242, decision D23, log 9).
A `LoadROM` is performed before the boot ends (log 7). -/
def Obligations.StepPerformsTheOldestOperation : Prop :=
  ∀ (s : State) (rest : List Operation), s.fault = none →
    (s.pending = [] → step s = cycle s) ∧
    (s.pending = .cycle :: rest → step s = cycle { s with pending := rest }) ∧
    (s.pending = .tick :: rest → step s = .next (tick { s with pending := rest })) ∧
    (∀ k, s.pending = .press k :: rest → step s = .next ((press k { s with pending := rest }).stateOr { s with pending := rest })) ∧
    (∀ k, s.pending = .release k :: rest → step s = .next ((release k { s with pending := rest }).stateOr { s with pending := rest })) ∧
    (∀ cx cy, s.pending = .pixelAt cx cy :: rest → step s = .next { s with pending := rest }) ∧
    (∀ bytes, s.pending = .loadROM bytes :: rest → s.session = .constructed →
      step s = .next ((loadROM bytes { s with pending := rest }).stateOr { s with pending := rest })) ∧
    (s.pending = .reset :: rest → step s = .next (resetMachine { s with pending := rest }))

/-- 60_exceptions.md R244: both timers fall by one with a floor at 0, each by itself; nothing else changes. -/
def Obligations.TickCountsBothTimersDown : Prop :=
  ∀ s : State, (tick s).DT.toNat = s.DT.toNat - 1 ∧ (tick s).ST.toNat = s.ST.toNat - 1 ∧
    tick s = { s with DT := (tick s).DT, ST := (tick s).ST }

/-- 60_exceptions.md R245, R246: `Press` sets the key, pressed or not; `Release` clears a pressed key and is rejected for one that
is not pressed; a key above 15 is rejected by both. No other key and nothing else changes. -/
def Obligations.PressAndReleaseMoveOneKey : Prop :=
  ∀ s : State,
    (∀ k : Fin 16, ∃ t, press k.val s = .accepted t ∧ t.key[k] = true ∧ (∀ j : Fin 16, j ≠ k → t.key[j] = s.key[j]) ∧
      t = { s with key := t.key }) ∧
    (∀ k : Fin 16, s.key[k] = true → ∃ t, release k.val s = .accepted t ∧ t.key[k] = false ∧
      (∀ j : Fin 16, j ≠ k → t.key[j] = s.key[j]) ∧ t = { s with key := t.key }) ∧
    (∀ k : Fin 16, s.key[k] = false → release k.val s = .rejected .releaseNotPressed) ∧
    (∀ k, 15 < k → press k s = .rejected .keyOutOfRange ∧ release k s = .rejected .keyOutOfRange)

/-- 43_display.md R193: the pixel for a column below 64 and a row below 32, else the rejection. -/
def Obligations.PixelAtAnswersThePixel : Prop :=
  ∀ s : State, (∀ (cx : Fin 64) (cy : Fin 32), pixelAt cx.val cy.val s = .accepted (s.fb.pixel cx cy)) ∧
    (∀ cx cy, 63 < cx ∨ 31 < cy → pixelAt cx cy s = .rejected .pixelOutOfRange)

/-- 70_reset_and_hazards.md R271: up to 0xE00 bytes verbatim from 0x200 on, every other byte and everything else (but the model's
note that a ROM is loaded, log 7) unchanged; a longer ROM is rejected. -/
def Obligations.LoadRomStoresVerbatim : Prop :=
  ∀ (bytes : List Byte) (s : State), s.MemWf →
    (bytes.length ≤ 0xE00 → ∃ t, loadROM bytes s = .accepted t ∧ t.MemWf ∧
      (∀ k (h : k < bytes.length), t.byte (0x200 + k) = bytes[k]) ∧
      (∀ a, a < 0x200 ∨ 0x200 + bytes.length ≤ a → t.byte a = s.byte a) ∧
      t = { s with mem := t.mem, session := .loaded }) ∧
    (0xE00 < bytes.length → loadROM bytes s = .rejected .romTooLarge)

/-- 70_reset_and_hazards.md R271, R272, R273 (decision D17, log 7): in every state without a fault whose boot is not done, a
`LoadROM` that fits is performed and is then the one load, and one that is too large changes nothing and does not count; the
one load right after `Reset` gives the launch state, for every value of the open parameters; a load that is not the first
before the first cycle has no meaning. -/
def Obligations.RomIsLoadedOnceBeforeTheFirstCycle : Prop :=
  (∀ (s : State) (bytes : List Byte) (rest : List Operation), s.fault = none → s.session = .constructed →
    s.pending = .loadROM bytes :: rest →
    (bytes.length ≤ 0xE00 → ∃ t, loadROM bytes { s with pending := rest } = .accepted t ∧ t.session = .loaded ∧
      step s = .next t) ∧
    (0xE00 < bytes.length → loadROM bytes { s with pending := rest } = .rejected .romTooLarge ∧
      step s = .next { s with pending := rest })) ∧
  (∀ (c : Config.Params) (bytes : List Byte) (rest : List Operation), bytes.length ≤ 0xE00 →
    ∃ t, launch c bytes = .accepted t ∧
      step { resetUnder c with pending := .loadROM bytes :: rest } = .next { t with pending := rest }) ∧
  (∀ (s : State) (bytes : List Byte) (rest : List Operation), s.pending = .loadROM bytes :: rest →
    s.session ≠ .constructed → step s = .refused .romLoadOutOfOrder)

/-! ### The whole machine -/

/-- 10_state.md R20, its column "written by": every instruction leaves alone what the table does not say it writes, the model's
own fields included; only `Cxkk` consumes a random byte (41_alu.md R151). -/
def Obligations.StateIsWrittenOnlyAsTheTableSays : Prop :=
  ∀ (i : Instr) (s t : State), exec i s = .next t →
    (storedBytes i = 0 → t.mem = s.mem) ∧ (writesI i = false → t.I = s.I) ∧
    ((∀ nnn, i ≠ .call nnn) → t.stack = s.stack) ∧ ((∀ nnn, i ≠ .call nnn) → i ≠ .ret → t.depth = s.depth) ∧
    (i ≠ .cls → (∀ x y n, i ≠ .drw x y n) → t.fb = s.fb) ∧ ((∀ x, i ≠ .ldDTVx x) → t.DT = s.DT) ∧
    ((∀ x, i ≠ .ldSTVx x) → t.ST = s.ST) ∧ t.key = s.key ∧ t.config = s.config ∧ t.session = s.session ∧
    t.pending = s.pending ∧ ((∀ x kk, i ≠ .rnd x kk) → t.draws = s.draws) ∧ (faultOf i = none → t.fault = s.fault)

/-- The frame of the registers for every instruction (10_state.md R21, R22): a register that is not a destination keeps its
value. -/
def Obligations.RegistersKeepOutsideDestinations : Prop :=
  ∀ (i : Instr) (s t : State) (z : Reg), exec i s = .next t → writesReg i z = false → t.reg z = s.reg z

/-- The frame of memory for every instruction (20_memory.md R67): every byte outside those stored from `I` on reads as before,
and memory stays canonical. -/
def Obligations.MemoryKeepsOutsideStoredBytes : Prop :=
  ∀ (i : Instr) (s t : State), s.MemWf → exec i s = .next t →
    t.MemWf ∧ ∀ a, a < s.I.toNat ∨ s.I.toNat + storedBytes i ≤ a → t.byte a = s.byte a

/-- 70_reset_and_hazards.md R274 (decision D13, log 22): at rest every further cycle leaves the whole state unchanged (but for the
model's `session`, log 7), so the machine stays at rest. -/
def Obligations.AtRestACycleChangesNothing : Prop :=
  ∀ s : State, s.AtRest → cycle s = .next { s with session := .running }
end

