-- ==== Sys2Proof/Laws/Decode.lean ====
section
/-! SUPPORT. Fields and formats as numbers (spec 30_encoding.md R91, R92): what each format's word is, what each field of
a word is, and that each field of a format's word is what was filled in. -/

namespace Sys2Proof

theorem toNat_nibble (k : Fin 16) : (nibble k).toNat = k.val := rfl

theorem toNat_encNnn (t : Fin 16) (nnn : BitVec 12) : (encNnn t nnn).toNat = t.val * 4096 + nnn.toNat := by
  have h : (encNnn t nnn).toNat = (nibble t ++ nnn : BitVec (4 + 12)).toNat := rfl
  rw [h, BitVec.toNat_append, toNat_nibble, ← Nat.shiftLeft_add_eq_or_of_lt (by omega)]
  simp only [Nat.shiftLeft_eq]

theorem toNat_encXkk (t : Fin 16) (x : Reg) (kk : Byte) :
    (encXkk t x kk).toNat = t.val * 4096 + x.val * 256 + kk.toNat := by
  have h : (encXkk t x kk).toNat = (nibble t ++ nibble x ++ kk : BitVec (4 + 4 + 8)).toNat := rfl
  rw [h, BitVec.toNat_append, BitVec.toNat_append, toNat_nibble, toNat_nibble,
    ← Nat.shiftLeft_add_eq_or_of_lt (by omega), ← Nat.shiftLeft_add_eq_or_of_lt (by omega)]
  simp only [Nat.shiftLeft_eq]; omega

theorem toNat_encXyn (t : Fin 16) (x y : Reg) (n : Fin 16) :
    (encXyn t x y n).toNat = t.val * 4096 + x.val * 256 + y.val * 16 + n.val := by
  have h : (encXyn t x y n).toNat = (nibble t ++ nibble x ++ nibble y ++ nibble n : BitVec (4 + 4 + 4 + 4)).toNat := rfl
  rw [h, BitVec.toNat_append, BitVec.toNat_append, BitVec.toNat_append, toNat_nibble, toNat_nibble, toNat_nibble,
    toNat_nibble, ← Nat.shiftLeft_add_eq_or_of_lt (by omega), ← Nat.shiftLeft_add_eq_or_of_lt (by omega),
    ← Nat.shiftLeft_add_eq_or_of_lt (by omega)]
  simp only [Nat.shiftLeft_eq]; omega

theorem fieldTop_val (op : Word) : (fieldTop op).val = op.toNat / 4096 := by
  have := op.isLt
  simp [fieldTop, Nat.shiftRight_eq_div_pow]
  omega

theorem fieldX_val (op : Word) : (fieldX op).val = op.toNat / 256 % 16 := by
  simp [fieldX, Nat.shiftRight_eq_div_pow]

theorem fieldY_val (op : Word) : (fieldY op).val = op.toNat / 16 % 16 := by
  simp [fieldY, Nat.shiftRight_eq_div_pow]

theorem fieldN_val (op : Word) : (fieldN op).val = op.toNat % 16 := by
  simp [fieldN]

theorem toNat_fieldKk (op : Word) : (fieldKk op).toNat = op.toNat % 256 := by
  simp [fieldKk]

theorem toNat_fieldNnn (op : Word) : (fieldNnn op).toNat = op.toNat % 4096 := by
  simp [fieldNnn]

theorem toNat_wordOfBytes (hi lo : Byte) : (wordOfBytes hi lo).toNat = hi.toNat * 256 + lo.toNat := by
  have h : (wordOfBytes hi lo).toNat = (hi ++ lo : BitVec (8 + 8)).toNat := rfl
  rw [h, BitVec.toNat_append, ← Nat.shiftLeft_add_eq_or_of_lt (by omega)]
  simp only [Nat.shiftLeft_eq]

/-! ### The fields of each format -/

@[simp] theorem fieldTop_encNnn (t : Fin 16) (nnn : BitVec 12) : fieldTop (encNnn t nnn) = t := by
  apply Fin.ext; rw [fieldTop_val, toNat_encNnn]; omega
@[simp] theorem fieldNnn_encNnn (t : Fin 16) (nnn : BitVec 12) : fieldNnn (encNnn t nnn) = nnn := by
  apply BitVec.eq_of_toNat_eq; rw [toNat_fieldNnn, toNat_encNnn]; omega
@[simp] theorem fieldTop_encXkk (t : Fin 16) (x : Reg) (kk : Byte) : fieldTop (encXkk t x kk) = t := by
  apply Fin.ext; rw [fieldTop_val, toNat_encXkk]; omega
@[simp] theorem fieldX_encXkk (t : Fin 16) (x : Reg) (kk : Byte) : fieldX (encXkk t x kk) = x := by
  apply Fin.ext; rw [fieldX_val, toNat_encXkk]; omega
@[simp] theorem fieldKk_encXkk (t : Fin 16) (x : Reg) (kk : Byte) : fieldKk (encXkk t x kk) = kk := by
  apply BitVec.eq_of_toNat_eq; rw [toNat_fieldKk, toNat_encXkk]; omega
@[simp] theorem fieldTop_encXyn (t : Fin 16) (x y : Reg) (n : Fin 16) : fieldTop (encXyn t x y n) = t := by
  apply Fin.ext; rw [fieldTop_val, toNat_encXyn]; omega
@[simp] theorem fieldX_encXyn (t : Fin 16) (x y : Reg) (n : Fin 16) : fieldX (encXyn t x y n) = x := by
  apply Fin.ext; rw [fieldX_val, toNat_encXyn]; omega
@[simp] theorem fieldY_encXyn (t : Fin 16) (x y : Reg) (n : Fin 16) : fieldY (encXyn t x y n) = y := by
  apply Fin.ext; rw [fieldY_val, toNat_encXyn]; omega
@[simp] theorem fieldN_encXyn (t : Fin 16) (x y : Reg) (n : Fin 16) : fieldN (encXyn t x y n) = n := by
  apply Fin.ext; rw [fieldN_val, toNat_encXyn]; omega

/-! ### A word from its fields -/

theorem encNnn_fields (op : Word) : encNnn (fieldTop op) (fieldNnn op) = op := by
  apply BitVec.eq_of_toNat_eq; rw [toNat_encNnn, fieldTop_val, toNat_fieldNnn]; omega
theorem encXkk_fields (op : Word) : encXkk (fieldTop op) (fieldX op) (fieldKk op) = op := by
  apply BitVec.eq_of_toNat_eq; rw [toNat_encXkk, fieldTop_val, fieldX_val, toNat_fieldKk]; omega
theorem encXyn_fields (op : Word) : encXyn (fieldTop op) (fieldX op) (fieldY op) (fieldN op) = op := by
  apply BitVec.eq_of_toNat_eq; rw [toNat_encXyn, fieldTop_val, fieldX_val, fieldY_val, fieldN_val]; omega

/-! ### Masks: which words a row of the opcode table selects (R94) -/

theorem nibble_and_zero (k : Fin 16) : nibble k &&& nibble 0 = nibble 0 := by revert k; decide

theorem nibble_and_ones (k : Fin 16) : nibble k &&& nibble 0xF = nibble k := by revert k; decide

/-- Mask `F000` keeps the family. -/
theorem and_maskNnn (op : Word) : op &&& 0xF000#16 = encNnn (fieldTop op) 0#12 := by
  have h : (nibble (fieldTop op) ++ fieldNnn op : BitVec (4 + 12)) &&& (nibble 0xF ++ 0#12) =
      nibble (fieldTop op) ++ 0#12 := by
    rw [BitVec.and_append, nibble_and_ones, BitVec.and_zero]
  have e : (nibble (fieldTop op) ++ fieldNnn op : BitVec (4 + 12)) = op := encNnn_fields op
  rw [e] at h
  exact h

theorem and_maskXyn (op : Word) : op &&& 0xF00F#16 = encXyn (fieldTop op) 0 0 (fieldN op) := by
  have h : (nibble (fieldTop op) ++ nibble (fieldX op) ++ nibble (fieldY op) ++ nibble (fieldN op) :
        BitVec (4 + 4 + 4 + 4)) &&& (nibble 0xF ++ nibble 0 ++ nibble 0 ++ nibble 0xF) =
      nibble (fieldTop op) ++ nibble 0 ++ nibble 0 ++ nibble (fieldN op) := by
    rw [BitVec.and_append, BitVec.and_append, BitVec.and_append, nibble_and_ones,
      nibble_and_ones, nibble_and_zero, nibble_and_zero]
  have e : (nibble (fieldTop op) ++ nibble (fieldX op) ++ nibble (fieldY op) ++ nibble (fieldN op) :
      BitVec (4 + 4 + 4 + 4)) = op := encXyn_fields op
  rw [e] at h
  exact h

theorem and_maskXkk (op : Word) : op &&& 0xF0FF#16 = encXkk (fieldTop op) 0 (fieldKk op) := by
  have h : (nibble (fieldTop op) ++ nibble (fieldX op) ++ fieldKk op : BitVec (4 + 4 + 8)) &&&
        (nibble 0xF ++ nibble 0 ++ 0xFF#8) = nibble (fieldTop op) ++ nibble 0 ++ fieldKk op := by
    rw [BitVec.and_append, BitVec.and_append, nibble_and_ones, nibble_and_zero]
    congr 1
    exact BitVec.and_allOnes
  have e : (nibble (fieldTop op) ++ nibble (fieldX op) ++ fieldKk op : BitVec (4 + 4 + 8)) = op := encXkk_fields op
  rw [e] at h
  exact h

theorem and_maskFixed (op : Word) : op &&& 0xFFFF#16 = op := BitVec.and_allOnes (x := op)

theorem encNnn_inj {t u : Fin 16} {m n : BitVec 12} : encNnn t m = encNnn u n ↔ t = u ∧ m = n :=
  ⟨fun h => ⟨by simpa using congrArg fieldTop h, by simpa using congrArg fieldNnn h⟩, by rintro ⟨rfl, rfl⟩; rfl⟩

theorem encXkk_inj {t u : Fin 16} {x y : Reg} {k l : Byte} : encXkk t x k = encXkk u y l ↔ t = u ∧ x = y ∧ k = l :=
  ⟨fun h => ⟨by simpa using congrArg fieldTop h, by simpa using congrArg fieldX h, by simpa using congrArg fieldKk h⟩,
    by rintro ⟨rfl, rfl, rfl⟩; rfl⟩

theorem encXyn_inj {t u : Fin 16} {x y z w : Reg} {n m : Fin 16} :
    encXyn t x z n = encXyn u y w m ↔ t = u ∧ x = y ∧ z = w ∧ n = m :=
  ⟨fun h => ⟨by simpa using congrArg fieldTop h, by simpa using congrArg fieldX h, by simpa using congrArg fieldY h,
    by simpa using congrArg fieldN h⟩, by rintro ⟨rfl, rfl, rfl, rfl⟩; rfl⟩
/-- A row of mask `F000` selects by the family. -/
theorem selects_nnn (t : Fin 16) (op : Word) : OpcodeRow.selects ⟨0xF000, encNnn t 0⟩ op = decide (fieldTop op = t) := by
  simp only [OpcodeRow.selects]
  rw [show (op &&& 0xF000 : Word) = _ from and_maskNnn op, beq_eq_decide]
  simp [encNnn_inj]

theorem selects_xyn (t n : Fin 16) (op : Word) :
    OpcodeRow.selects ⟨0xF00F, encXyn t 0 0 n⟩ op = decide (fieldTop op = t ∧ fieldN op = n) := by
  simp only [OpcodeRow.selects]
  rw [show (op &&& 0xF00F : Word) = _ from and_maskXyn op, beq_eq_decide]
  simp [encXyn_inj]

theorem selects_xkk (t : Fin 16) (kk : Byte) (op : Word) :
    OpcodeRow.selects ⟨0xF0FF, encXkk t 0 kk⟩ op = decide (fieldTop op = t ∧ fieldKk op = kk) := by
  simp only [OpcodeRow.selects]
  rw [show (op &&& 0xF0FF : Word) = _ from and_maskXkk op, beq_eq_decide]
  simp [encXkk_inj]

theorem selects_fixed (w op : Word) : OpcodeRow.selects ⟨0xFFFF, w⟩ op = decide (op = w) := by
  simp only [OpcodeRow.selects]
  rw [show (op &&& 0xFFFF : Word) = _ from and_maskFixed op, beq_eq_decide]
/-- The table with its patterns as formats. -/
theorem opcodeTable_formats : opcodeTable =
    [⟨0xFFFF, 0x00E0⟩, ⟨0xFFFF, 0x00EE⟩] ++ ([0, 1, 2, 3, 4].map fun t => ⟨0xF000, encNnn t 0⟩) ++
    [⟨0xF00F, encXyn 5 0 0 0⟩, ⟨0xF000, encNnn 6 0⟩, ⟨0xF000, encNnn 7 0⟩] ++
    ([0, 1, 2, 3, 4, 5, 6, 7, 14].map fun n => ⟨0xF00F, encXyn 8 0 0 n⟩) ++ [⟨0xF00F, encXyn 9 0 0 0⟩] ++
    ([10, 11, 12, 13].map fun t => ⟨0xF000, encNnn t 0⟩) ++
    ([0x9E, 0xA1].map fun kk => ⟨0xF0FF, encXkk 14 0 kk⟩) ++
    ([0x07, 0x0A, 0x15, 0x18, 0x1E, 0x29, 0x33, 0x55, 0x65].map fun kk => ⟨0xF0FF, encXkk 15 0 kk⟩) := by decide

end Sys2Proof
end

