-- ==== Sys2Proof/Laws/Memory.lean ====
section
/-! SUPPORT. The laws of memory: read after write, the canonical form kept by every operation, runs of bytes, the checked
primitives and the range check. -/

namespace Sys2Proof.Machine

variable {font : Config.Font}

/-! ### One byte -/

theorem Memory.wf_cons {a : Nat} {v : Byte} {m : Memory} :
    Memory.wf font ((a, v) :: m) = true ↔
      a < Config.memSize ∧ v ≠ Memory.unlisted font a ∧ (∀ c ∈ m, a < c.1) ∧ Memory.wf font m = true := by
  simp [Memory.wf, and_assoc]

/-- Below its least listed address a canonical memory reads as unlisted. -/
theorem Memory.read_of_lt {m : Memory} {a : Nat} (h : ∀ c ∈ m, a < c.1) : m.read font a = Memory.unlisted font a := by
  induction m with
  | nil => rfl
  | cons c m ih =>
    have hc := h c (by simp)
    simp only [Memory.read, Nat.ne_of_lt hc, if_false]
    exact ih fun d hd => h d (by simp [hd])

@[simp] theorem Memory.read_consCell (a : Nat) (v : Byte) (m : Memory) (b : Nat) (h : ∀ c ∈ m, a < c.1) :
    (Memory.consCell font a v m).read font b = if b = a then v else m.read font b := by
  unfold Memory.consCell
  by_cases hv : v = Memory.unlisted font a
  · by_cases hb : b = a
    · subst hb; simp [hv, Memory.read_of_lt h]
    · simp [hv, hb]
  · simp [hv, Memory.read]

/-- Reading after a write: the byte written at its address, every other byte as before. -/
theorem Memory.read_write {m : Memory} (h : m.wf font = true) (a : Nat) (v : Byte) (b : Nat) :
    (m.write font a v).read font b = if b = a then v else m.read font b := by
  induction m with
  | nil => simp [Memory.write]
  | cons c m ih =>
    obtain ⟨k, w⟩ := c
    obtain ⟨-, -, hlt, hm⟩ := Memory.wf_cons.mp h
    simp only [Memory.write]
    split
    · rename_i hak
      rw [Memory.read_consCell]
      intro d hd
      rcases List.mem_cons.mp hd with rfl | hd
      · exact hak
      · exact Nat.lt_trans hak (hlt d hd)
    · split
      · rename_i hak; subst hak
        rw [Memory.read_consCell _ _ _ _ hlt]
        by_cases hb : b = a <;> simp [Memory.read, hb]
      · rename_i h1 h2
        simp only [Memory.read, ih hm]
        by_cases hb : b = k
        · subst hb; simp [Ne.symm h2]
        · simp [hb]

theorem Memory.mem_write {m : Memory} {a : Nat} {v : Byte} {c : Host.Cell} (hc : c ∈ m.write font a v) :
    c.1 = a ∨ c ∈ m := by
  induction m with
  | nil => simp only [Memory.write, Memory.consCell] at hc; split at hc <;> simp_all
  | cons d m ih =>
    simp only [Memory.write, Memory.consCell] at hc
    split at hc
    · split at hc <;> simp_all
      rcases hc with rfl | hc <;> simp_all
    · split at hc
      · split at hc <;> simp_all
        rcases hc with rfl | hc <;> simp_all
      · rcases List.mem_cons.mp hc with rfl | hc
        · simp
        · rcases ih hc with h | h <;> simp [h]

theorem Memory.wf_consCell {a : Nat} {v : Byte} {m : Memory} (ha : a < Config.memSize) (hlt : ∀ c ∈ m, a < c.1)
    (hm : m.wf font = true) : (Memory.consCell font a v m).wf font = true := by
  unfold Memory.consCell
  split
  · exact hm
  · exact Memory.wf_cons.mpr ⟨ha, ‹_›, hlt, hm⟩

/-- A write inside memory keeps the canonical form. -/
theorem Memory.write_wf {m : Memory} (h : m.wf font = true) {a : Nat} (ha : a < Config.memSize) (v : Byte) :
    (m.write font a v).wf font = true := by
  induction m with
  | nil => exact Memory.wf_consCell ha (by simp) rfl
  | cons c m ih =>
    obtain ⟨k, w⟩ := c
    obtain ⟨hk, hw, hlt, hm⟩ := Memory.wf_cons.mp h
    simp only [Memory.write]
    split
    · rename_i hak
      refine Memory.wf_consCell ha (fun d hd => ?_) h
      rcases List.mem_cons.mp hd with rfl | hd
      · exact hak
      · exact Nat.lt_trans hak (hlt d hd)
    · split
      · rename_i hak; subst hak
        exact Memory.wf_consCell ha hlt hm
      · refine Memory.wf_cons.mpr ⟨hk, hw, fun d hd => ?_, ih hm⟩
        rcases Memory.mem_write hd with hd | hd
        · omega
        · exact hlt d hd

/-- Reset memory, which lists nothing, is canonical. -/
theorem State.reset_mem_wf : State.reset.mem.wf font = true := rfl

/-! ### Runs of bytes -/

@[simp] theorem readBlock_length (font : Config.Font) (m : Memory) (base n : Nat) : (readBlock font m base n).length = n := by
  induction n generalizing base with
  | zero => rfl
  | succ n ih => simp [readBlock, ih]

theorem readBlock_getElem (font : Config.Font) (m : Memory) (base n k : Nat) (h : k < (readBlock font m base n).length) :
    (readBlock font m base n)[k] = m.read font (base + k) := by
  induction n generalizing base k with
  | zero => simp [readBlock] at h
  | succ n ih =>
    cases k with
    | zero => rfl
    | succ k =>
      simp only [readBlock, List.getElem_cons_succ]
      rw [ih]; congr 1; omega

/-- A run stored inside memory keeps the canonical form. -/
theorem storeBlock_wf {m : Memory} (h : m.wf font = true) {base : Nat} {vs : List Byte}
    (hr : base + vs.length ≤ Config.memSize) : (storeBlock font m base vs).wf font = true := by
  induction vs generalizing m base with
  | nil => exact h
  | cons v vs ih =>
    simp only [List.length_cons] at hr
    exact ih (Memory.write_wf h (by omega) v) (by omega)

/-- What a run of stores leaves at an address: the stored byte inside the run, the byte before it outside. -/
theorem read_storeBlock {m : Memory} (h : m.wf font = true) {base : Nat} {vs : List Byte}
    (hr : base + vs.length ≤ Config.memSize) (b : Nat) :
    (storeBlock font m base vs).read font b =
      if h : base ≤ b ∧ b < base + vs.length then vs[b - base]'(by omega) else m.read font b := by
  induction vs generalizing m base with
  | nil =>
    have : ¬(base ≤ b ∧ b < base + ([] : List Byte).length) := by simp only [List.length_nil]; omega
    simp only [this, dite_false]; rfl
  | cons v vs ih =>
    simp only [List.length_cons] at hr ⊢
    rw [storeBlock, ih (Memory.write_wf h (by omega) v) (by omega), Memory.read_write h]
    by_cases hb : b = base
    · subst hb
      have h1 : ¬(b + 1 ≤ b ∧ b < b + 1 + vs.length) := by omega
      have h2 : b ≤ b ∧ b < b + (vs.length + 1) := by omega
      simp only [h1, h2, dite_true, dite_false, if_true, Nat.sub_self, and_self, List.getElem_cons_zero]
    · by_cases hin : base ≤ b ∧ b < base + (vs.length + 1)
      · have h1 : base + 1 ≤ b ∧ b < base + 1 + vs.length := by omega
        have h2 : b - base = (b - (base + 1)) + 1 := by omega
        simp only [hin, h1, dite_true, and_self, h2, List.getElem_cons_succ]
      · have h1 : ¬(base + 1 ≤ b ∧ b < base + 1 + vs.length) := by omega
        simp only [hin, h1, hb, dite_false, if_false]

/-- Inside a stored run. -/
theorem read_storeBlock_inside {m : Memory} (h : m.wf font = true) {base : Nat} {vs : List Byte}
    (hr : base + vs.length ≤ Config.memSize) (k : Nat) (hk : k < vs.length) :
    (storeBlock font m base vs).read font (base + k) = vs[k] := by
  rw [read_storeBlock h hr, dif_pos ⟨by omega, by omega⟩]
  simp only [Nat.add_sub_cancel_left]

/-- Outside a stored run. -/
theorem read_storeBlock_outside {m : Memory} (h : m.wf font = true) {base : Nat} {vs : List Byte}
    (hr : base + vs.length ≤ Config.memSize) {b : Nat} (hb : b < base ∨ base + vs.length ≤ b) :
    (storeBlock font m base vs).read font b = m.read font b := by
  rw [read_storeBlock h hr, dif_neg (by omega)]

/-! ### The memory of a state -/

@[simp] theorem State.load_length (s : State) (base n : Nat) : (s.load base n).length = n := readBlock_length _ _ _ _

theorem State.load_getElem (s : State) (base n k : Nat) (h : k < (s.load base n).length) :
    (s.load base n)[k] = s.byte (base + k) := readBlock_getElem _ _ _ _ _ h

/-- A run stored inside memory keeps the canonical form. -/
theorem State.store_memWf {s : State} (h : s.MemWf) {base : Nat} {vs : List Byte}
    (hr : base + vs.length ≤ Config.memSize) : (s.store base vs).MemWf := storeBlock_wf h hr

/-- Inside a stored run a byte is the one stored. -/
theorem State.store_byte_inside {s : State} (h : s.MemWf) {base : Nat} {vs : List Byte}
    (hr : base + vs.length ≤ Config.memSize) (k : Nat) (hk : k < vs.length) :
    (s.store base vs).byte (base + k) = vs[k] := read_storeBlock_inside h hr k hk

/-- Outside a stored run a byte is the one before. -/
theorem State.store_byte_outside {s : State} (h : s.MemWf) {base : Nat} {vs : List Byte}
    (hr : base + vs.length ≤ Config.memSize) {b : Nat} (hb : b < base ∨ base + vs.length ≤ b) :
    (s.store base vs).byte b = s.byte b := read_storeBlock_outside h hr hb

/-- After reset the first 80 bytes are the setting's font and every other byte is zero. -/
theorem reset_byte (c : Config.Params) (a : Nat) :
    ({ State.reset with config := c } : State).byte a = if h : a < Config.fontSize then c.font[a] else 0 := rfl

/-! ### The checked primitives -/

theorem memRead_ok {m : Memory} {addr : Nat} (h : addr ≤ 0xFFF) : memRead font m addr = .ok (m.read font addr) := by
  simp [memRead, h]

theorem memRead_error {m : Memory} {addr : Nat} (h : 0xFFF < addr) : memRead font m addr = .error addr := by
  simp [memRead, Nat.not_le.mpr h]

/-- Everything a 2-byte read can do. -/
theorem memRead16_cases (font : Config.Font) (m : Memory) (addr : Nat) :
    (addr ≤ 0xFFE ∧ memRead16 font m addr = .ok (wordOfBytes (m.read font addr) (m.read font (addr + 1)))) ∨
    (0xFFE < addr ∧ memRead16 font m addr = .error (max addr 0x1000)) := by
  unfold memRead16
  rcases Nat.lt_or_ge 0xFFF addr with h | h
  · right
    rw [memRead_error h]
    exact ⟨by omega, by simp; omega⟩
  · rw [memRead_ok h]
    rcases Nat.lt_or_ge 0xFFE addr with h' | h'
    · right
      rw [memRead_error (by omega)]
      exact ⟨h', by simp; omega⟩
    · left
      rw [memRead_ok (by omega)]
      exact ⟨h', rfl⟩

/-- The range check lets a run through exactly when it lies inside memory; else it names the lowest address outside. -/
theorem blockFault_eq (base n : Nat) :
    blockFault base n = if n = 0 ∨ base + n ≤ 0x1000 then none else some (max base 0x1000) := by
  unfold blockFault
  split <;> split <;> first | rfl | omega

end Sys2Proof.Machine
end

