-- ==== Sys2Proof/Laws/State.lean ====
section
/-! SUPPORT. One lemma per field per update of the state, each true by `rfl`, so that no proof unfolds a record update. -/

namespace Sys2Proof.Machine

/-! ### `State.setReg` -/

@[simp] theorem State.setReg_mem (s : State) (x : Reg) (v : Byte) : (s.setReg x v).mem = s.mem := rfl
@[simp] theorem State.setReg_V (s : State) (x : Reg) (v : Byte) : (s.setReg x v).V = s.V.set x v := rfl
@[simp] theorem State.setReg_I (s : State) (x : Reg) (v : Byte) : (s.setReg x v).I = s.I := rfl
@[simp] theorem State.setReg_pc (s : State) (x : Reg) (v : Byte) : (s.setReg x v).pc = s.pc := rfl
@[simp] theorem State.setReg_stack (s : State) (x : Reg) (v : Byte) : (s.setReg x v).stack = s.stack := rfl
@[simp] theorem State.setReg_depth (s : State) (x : Reg) (v : Byte) : (s.setReg x v).depth = s.depth := rfl
@[simp] theorem State.setReg_fb (s : State) (x : Reg) (v : Byte) : (s.setReg x v).fb = s.fb := rfl
@[simp] theorem State.setReg_DT (s : State) (x : Reg) (v : Byte) : (s.setReg x v).DT = s.DT := rfl
@[simp] theorem State.setReg_ST (s : State) (x : Reg) (v : Byte) : (s.setReg x v).ST = s.ST := rfl
@[simp] theorem State.setReg_key (s : State) (x : Reg) (v : Byte) : (s.setReg x v).key = s.key := rfl
@[simp] theorem State.setReg_fault (s : State) (x : Reg) (v : Byte) : (s.setReg x v).fault = s.fault := rfl
@[simp] theorem State.setReg_config (s : State) (x : Reg) (v : Byte) : (s.setReg x v).config = s.config := rfl
@[simp] theorem State.setReg_byte (s : State) (x : Reg) (v : Byte) (a : Nat) : (s.setReg x v).byte a = s.byte a := rfl
@[simp] theorem State.setReg_draws (s : State) (x : Reg) (v : Byte) : (s.setReg x v).draws = s.draws := rfl
@[simp] theorem State.setReg_session (s : State) (x : Reg) (v : Byte) : (s.setReg x v).session = s.session := rfl
@[simp] theorem State.setReg_pending (s : State) (x : Reg) (v : Byte) : (s.setReg x v).pending = s.pending := rfl

/-- Reading a register after one was written. -/
@[simp] theorem State.setReg_reg (s : State) (x : Reg) (v : Byte) (z : Reg) :
    (s.setReg x v).reg z = if z = x then v else s.reg z := by
  simp only [State.reg, State.setReg, Fin.getElem_fin, Vector.getElem_set]
  split <;> simp_all [Fin.ext_iff, eq_comm]

/-! ### `State.setV` -/

@[simp] theorem State.setV_mem (s : State) (r : Vector Byte 16) : (s.setV r).mem = s.mem := rfl
@[simp] theorem State.setV_V (s : State) (r : Vector Byte 16) : (s.setV r).V = r := rfl
@[simp] theorem State.setV_I (s : State) (r : Vector Byte 16) : (s.setV r).I = s.I := rfl
@[simp] theorem State.setV_pc (s : State) (r : Vector Byte 16) : (s.setV r).pc = s.pc := rfl
@[simp] theorem State.setV_stack (s : State) (r : Vector Byte 16) : (s.setV r).stack = s.stack := rfl
@[simp] theorem State.setV_depth (s : State) (r : Vector Byte 16) : (s.setV r).depth = s.depth := rfl
@[simp] theorem State.setV_fb (s : State) (r : Vector Byte 16) : (s.setV r).fb = s.fb := rfl
@[simp] theorem State.setV_DT (s : State) (r : Vector Byte 16) : (s.setV r).DT = s.DT := rfl
@[simp] theorem State.setV_ST (s : State) (r : Vector Byte 16) : (s.setV r).ST = s.ST := rfl
@[simp] theorem State.setV_key (s : State) (r : Vector Byte 16) : (s.setV r).key = s.key := rfl
@[simp] theorem State.setV_fault (s : State) (r : Vector Byte 16) : (s.setV r).fault = s.fault := rfl
@[simp] theorem State.setV_config (s : State) (r : Vector Byte 16) : (s.setV r).config = s.config := rfl
@[simp] theorem State.setV_byte (s : State) (r : Vector Byte 16) (a : Nat) : (s.setV r).byte a = s.byte a := rfl
@[simp] theorem State.setV_draws (s : State) (r : Vector Byte 16) : (s.setV r).draws = s.draws := rfl
@[simp] theorem State.setV_session (s : State) (r : Vector Byte 16) : (s.setV r).session = s.session := rfl
@[simp] theorem State.setV_pending (s : State) (r : Vector Byte 16) : (s.setV r).pending = s.pending := rfl
@[simp] theorem State.setV_reg (s : State) (r : Vector Byte 16) (z : Reg) : (s.setV r).reg z = r[z] := rfl

/-! ### `State.setI` -/

@[simp] theorem State.setI_mem (s : State) (v : Word) : (s.setI v).mem = s.mem := rfl
@[simp] theorem State.setI_V (s : State) (v : Word) : (s.setI v).V = s.V := rfl
@[simp] theorem State.setI_I (s : State) (v : Word) : (s.setI v).I = v := rfl
@[simp] theorem State.setI_pc (s : State) (v : Word) : (s.setI v).pc = s.pc := rfl
@[simp] theorem State.setI_stack (s : State) (v : Word) : (s.setI v).stack = s.stack := rfl
@[simp] theorem State.setI_depth (s : State) (v : Word) : (s.setI v).depth = s.depth := rfl
@[simp] theorem State.setI_fb (s : State) (v : Word) : (s.setI v).fb = s.fb := rfl
@[simp] theorem State.setI_DT (s : State) (v : Word) : (s.setI v).DT = s.DT := rfl
@[simp] theorem State.setI_ST (s : State) (v : Word) : (s.setI v).ST = s.ST := rfl
@[simp] theorem State.setI_key (s : State) (v : Word) : (s.setI v).key = s.key := rfl
@[simp] theorem State.setI_fault (s : State) (v : Word) : (s.setI v).fault = s.fault := rfl
@[simp] theorem State.setI_config (s : State) (v : Word) : (s.setI v).config = s.config := rfl
@[simp] theorem State.setI_byte (s : State) (v : Word) (a : Nat) : (s.setI v).byte a = s.byte a := rfl
@[simp] theorem State.setI_draws (s : State) (v : Word) : (s.setI v).draws = s.draws := rfl
@[simp] theorem State.setI_session (s : State) (v : Word) : (s.setI v).session = s.session := rfl
@[simp] theorem State.setI_pending (s : State) (v : Word) : (s.setI v).pending = s.pending := rfl
@[simp] theorem State.setI_reg (s : State) (v : Word) (z : Reg) : (s.setI v).reg z = s.reg z := rfl

/-! ### `State.setPc` -/

@[simp] theorem State.setPc_mem (s : State) (v : Word) : (s.setPc v).mem = s.mem := rfl
@[simp] theorem State.setPc_V (s : State) (v : Word) : (s.setPc v).V = s.V := rfl
@[simp] theorem State.setPc_I (s : State) (v : Word) : (s.setPc v).I = s.I := rfl
@[simp] theorem State.setPc_pc (s : State) (v : Word) : (s.setPc v).pc = v := rfl
@[simp] theorem State.setPc_stack (s : State) (v : Word) : (s.setPc v).stack = s.stack := rfl
@[simp] theorem State.setPc_depth (s : State) (v : Word) : (s.setPc v).depth = s.depth := rfl
@[simp] theorem State.setPc_fb (s : State) (v : Word) : (s.setPc v).fb = s.fb := rfl
@[simp] theorem State.setPc_DT (s : State) (v : Word) : (s.setPc v).DT = s.DT := rfl
@[simp] theorem State.setPc_ST (s : State) (v : Word) : (s.setPc v).ST = s.ST := rfl
@[simp] theorem State.setPc_key (s : State) (v : Word) : (s.setPc v).key = s.key := rfl
@[simp] theorem State.setPc_fault (s : State) (v : Word) : (s.setPc v).fault = s.fault := rfl
@[simp] theorem State.setPc_config (s : State) (v : Word) : (s.setPc v).config = s.config := rfl
@[simp] theorem State.setPc_byte (s : State) (v : Word) (a : Nat) : (s.setPc v).byte a = s.byte a := rfl
@[simp] theorem State.setPc_draws (s : State) (v : Word) : (s.setPc v).draws = s.draws := rfl
@[simp] theorem State.setPc_session (s : State) (v : Word) : (s.setPc v).session = s.session := rfl
@[simp] theorem State.setPc_pending (s : State) (v : Word) : (s.setPc v).pending = s.pending := rfl
@[simp] theorem State.setPc_reg (s : State) (v : Word) (z : Reg) : (s.setPc v).reg z = s.reg z := rfl

/-! ### `State.setMem` -/

@[simp] theorem State.setMem_mem (s : State) (m : Memory) : (s.setMem m).mem = m := rfl
@[simp] theorem State.setMem_V (s : State) (m : Memory) : (s.setMem m).V = s.V := rfl
@[simp] theorem State.setMem_I (s : State) (m : Memory) : (s.setMem m).I = s.I := rfl
@[simp] theorem State.setMem_pc (s : State) (m : Memory) : (s.setMem m).pc = s.pc := rfl
@[simp] theorem State.setMem_stack (s : State) (m : Memory) : (s.setMem m).stack = s.stack := rfl
@[simp] theorem State.setMem_depth (s : State) (m : Memory) : (s.setMem m).depth = s.depth := rfl
@[simp] theorem State.setMem_fb (s : State) (m : Memory) : (s.setMem m).fb = s.fb := rfl
@[simp] theorem State.setMem_DT (s : State) (m : Memory) : (s.setMem m).DT = s.DT := rfl
@[simp] theorem State.setMem_ST (s : State) (m : Memory) : (s.setMem m).ST = s.ST := rfl
@[simp] theorem State.setMem_key (s : State) (m : Memory) : (s.setMem m).key = s.key := rfl
@[simp] theorem State.setMem_fault (s : State) (m : Memory) : (s.setMem m).fault = s.fault := rfl
@[simp] theorem State.setMem_config (s : State) (m : Memory) : (s.setMem m).config = s.config := rfl
@[simp] theorem State.setMem_draws (s : State) (m : Memory) : (s.setMem m).draws = s.draws := rfl
@[simp] theorem State.setMem_session (s : State) (m : Memory) : (s.setMem m).session = s.session := rfl
@[simp] theorem State.setMem_pending (s : State) (m : Memory) : (s.setMem m).pending = s.pending := rfl
@[simp] theorem State.setMem_reg (s : State) (m : Memory) (z : Reg) : (s.setMem m).reg z = s.reg z := rfl

/-! ### `State.setStack` -/

@[simp] theorem State.setStack_mem (s : State) (st : Vector Word 16) (d : Fin 17) : (s.setStack st d).mem = s.mem := rfl
@[simp] theorem State.setStack_V (s : State) (st : Vector Word 16) (d : Fin 17) : (s.setStack st d).V = s.V := rfl
@[simp] theorem State.setStack_I (s : State) (st : Vector Word 16) (d : Fin 17) : (s.setStack st d).I = s.I := rfl
@[simp] theorem State.setStack_pc (s : State) (st : Vector Word 16) (d : Fin 17) : (s.setStack st d).pc = s.pc := rfl
@[simp] theorem State.setStack_stack (s : State) (st : Vector Word 16) (d : Fin 17) : (s.setStack st d).stack = st := rfl
@[simp] theorem State.setStack_depth (s : State) (st : Vector Word 16) (d : Fin 17) : (s.setStack st d).depth = d := rfl
@[simp] theorem State.setStack_fb (s : State) (st : Vector Word 16) (d : Fin 17) : (s.setStack st d).fb = s.fb := rfl
@[simp] theorem State.setStack_DT (s : State) (st : Vector Word 16) (d : Fin 17) : (s.setStack st d).DT = s.DT := rfl
@[simp] theorem State.setStack_ST (s : State) (st : Vector Word 16) (d : Fin 17) : (s.setStack st d).ST = s.ST := rfl
@[simp] theorem State.setStack_key (s : State) (st : Vector Word 16) (d : Fin 17) : (s.setStack st d).key = s.key := rfl
@[simp] theorem State.setStack_fault (s : State) (st : Vector Word 16) (d : Fin 17) : (s.setStack st d).fault = s.fault := rfl
@[simp] theorem State.setStack_config (s : State) (st : Vector Word 16) (d : Fin 17) : (s.setStack st d).config = s.config := rfl
@[simp] theorem State.setStack_byte (s : State) (st : Vector Word 16) (d : Fin 17) (a : Nat) : (s.setStack st d).byte a = s.byte a := rfl
@[simp] theorem State.setStack_draws (s : State) (st : Vector Word 16) (d : Fin 17) : (s.setStack st d).draws = s.draws := rfl
@[simp] theorem State.setStack_session (s : State) (st : Vector Word 16) (d : Fin 17) : (s.setStack st d).session = s.session := rfl
@[simp] theorem State.setStack_pending (s : State) (st : Vector Word 16) (d : Fin 17) : (s.setStack st d).pending = s.pending := rfl
@[simp] theorem State.setStack_reg (s : State) (st : Vector Word 16) (d : Fin 17) (z : Reg) : (s.setStack st d).reg z = s.reg z := rfl

/-! ### `State.setFb` -/

@[simp] theorem State.setFb_mem (s : State) (f : Framebuffer) : (s.setFb f).mem = s.mem := rfl
@[simp] theorem State.setFb_V (s : State) (f : Framebuffer) : (s.setFb f).V = s.V := rfl
@[simp] theorem State.setFb_I (s : State) (f : Framebuffer) : (s.setFb f).I = s.I := rfl
@[simp] theorem State.setFb_pc (s : State) (f : Framebuffer) : (s.setFb f).pc = s.pc := rfl
@[simp] theorem State.setFb_stack (s : State) (f : Framebuffer) : (s.setFb f).stack = s.stack := rfl
@[simp] theorem State.setFb_depth (s : State) (f : Framebuffer) : (s.setFb f).depth = s.depth := rfl
@[simp] theorem State.setFb_fb (s : State) (f : Framebuffer) : (s.setFb f).fb = f := rfl
@[simp] theorem State.setFb_DT (s : State) (f : Framebuffer) : (s.setFb f).DT = s.DT := rfl
@[simp] theorem State.setFb_ST (s : State) (f : Framebuffer) : (s.setFb f).ST = s.ST := rfl
@[simp] theorem State.setFb_key (s : State) (f : Framebuffer) : (s.setFb f).key = s.key := rfl
@[simp] theorem State.setFb_fault (s : State) (f : Framebuffer) : (s.setFb f).fault = s.fault := rfl
@[simp] theorem State.setFb_config (s : State) (f : Framebuffer) : (s.setFb f).config = s.config := rfl
@[simp] theorem State.setFb_byte (s : State) (f : Framebuffer) (a : Nat) : (s.setFb f).byte a = s.byte a := rfl
@[simp] theorem State.setFb_draws (s : State) (f : Framebuffer) : (s.setFb f).draws = s.draws := rfl
@[simp] theorem State.setFb_session (s : State) (f : Framebuffer) : (s.setFb f).session = s.session := rfl
@[simp] theorem State.setFb_pending (s : State) (f : Framebuffer) : (s.setFb f).pending = s.pending := rfl
@[simp] theorem State.setFb_reg (s : State) (f : Framebuffer) (z : Reg) : (s.setFb f).reg z = s.reg z := rfl

/-! ### `State.setDT` -/

@[simp] theorem State.setDT_mem (s : State) (v : Byte) : (s.setDT v).mem = s.mem := rfl
@[simp] theorem State.setDT_V (s : State) (v : Byte) : (s.setDT v).V = s.V := rfl
@[simp] theorem State.setDT_I (s : State) (v : Byte) : (s.setDT v).I = s.I := rfl
@[simp] theorem State.setDT_pc (s : State) (v : Byte) : (s.setDT v).pc = s.pc := rfl
@[simp] theorem State.setDT_stack (s : State) (v : Byte) : (s.setDT v).stack = s.stack := rfl
@[simp] theorem State.setDT_depth (s : State) (v : Byte) : (s.setDT v).depth = s.depth := rfl
@[simp] theorem State.setDT_fb (s : State) (v : Byte) : (s.setDT v).fb = s.fb := rfl
@[simp] theorem State.setDT_DT (s : State) (v : Byte) : (s.setDT v).DT = v := rfl
@[simp] theorem State.setDT_ST (s : State) (v : Byte) : (s.setDT v).ST = s.ST := rfl
@[simp] theorem State.setDT_key (s : State) (v : Byte) : (s.setDT v).key = s.key := rfl
@[simp] theorem State.setDT_fault (s : State) (v : Byte) : (s.setDT v).fault = s.fault := rfl
@[simp] theorem State.setDT_config (s : State) (v : Byte) : (s.setDT v).config = s.config := rfl
@[simp] theorem State.setDT_byte (s : State) (v : Byte) (a : Nat) : (s.setDT v).byte a = s.byte a := rfl
@[simp] theorem State.setDT_draws (s : State) (v : Byte) : (s.setDT v).draws = s.draws := rfl
@[simp] theorem State.setDT_session (s : State) (v : Byte) : (s.setDT v).session = s.session := rfl
@[simp] theorem State.setDT_pending (s : State) (v : Byte) : (s.setDT v).pending = s.pending := rfl
@[simp] theorem State.setDT_reg (s : State) (v : Byte) (z : Reg) : (s.setDT v).reg z = s.reg z := rfl

/-! ### `State.setST` -/

@[simp] theorem State.setST_mem (s : State) (v : Byte) : (s.setST v).mem = s.mem := rfl
@[simp] theorem State.setST_V (s : State) (v : Byte) : (s.setST v).V = s.V := rfl
@[simp] theorem State.setST_I (s : State) (v : Byte) : (s.setST v).I = s.I := rfl
@[simp] theorem State.setST_pc (s : State) (v : Byte) : (s.setST v).pc = s.pc := rfl
@[simp] theorem State.setST_stack (s : State) (v : Byte) : (s.setST v).stack = s.stack := rfl
@[simp] theorem State.setST_depth (s : State) (v : Byte) : (s.setST v).depth = s.depth := rfl
@[simp] theorem State.setST_fb (s : State) (v : Byte) : (s.setST v).fb = s.fb := rfl
@[simp] theorem State.setST_DT (s : State) (v : Byte) : (s.setST v).DT = s.DT := rfl
@[simp] theorem State.setST_ST (s : State) (v : Byte) : (s.setST v).ST = v := rfl
@[simp] theorem State.setST_key (s : State) (v : Byte) : (s.setST v).key = s.key := rfl
@[simp] theorem State.setST_fault (s : State) (v : Byte) : (s.setST v).fault = s.fault := rfl
@[simp] theorem State.setST_config (s : State) (v : Byte) : (s.setST v).config = s.config := rfl
@[simp] theorem State.setST_byte (s : State) (v : Byte) (a : Nat) : (s.setST v).byte a = s.byte a := rfl
@[simp] theorem State.setST_draws (s : State) (v : Byte) : (s.setST v).draws = s.draws := rfl
@[simp] theorem State.setST_session (s : State) (v : Byte) : (s.setST v).session = s.session := rfl
@[simp] theorem State.setST_pending (s : State) (v : Byte) : (s.setST v).pending = s.pending := rfl
@[simp] theorem State.setST_reg (s : State) (v : Byte) (z : Reg) : (s.setST v).reg z = s.reg z := rfl

/-! ### `State.setKey` -/

@[simp] theorem State.setKey_mem (s : State) (k : Fin 16) (b : Bool) : (s.setKey k b).mem = s.mem := rfl
@[simp] theorem State.setKey_V (s : State) (k : Fin 16) (b : Bool) : (s.setKey k b).V = s.V := rfl
@[simp] theorem State.setKey_I (s : State) (k : Fin 16) (b : Bool) : (s.setKey k b).I = s.I := rfl
@[simp] theorem State.setKey_pc (s : State) (k : Fin 16) (b : Bool) : (s.setKey k b).pc = s.pc := rfl
@[simp] theorem State.setKey_stack (s : State) (k : Fin 16) (b : Bool) : (s.setKey k b).stack = s.stack := rfl
@[simp] theorem State.setKey_depth (s : State) (k : Fin 16) (b : Bool) : (s.setKey k b).depth = s.depth := rfl
@[simp] theorem State.setKey_fb (s : State) (k : Fin 16) (b : Bool) : (s.setKey k b).fb = s.fb := rfl
@[simp] theorem State.setKey_DT (s : State) (k : Fin 16) (b : Bool) : (s.setKey k b).DT = s.DT := rfl
@[simp] theorem State.setKey_ST (s : State) (k : Fin 16) (b : Bool) : (s.setKey k b).ST = s.ST := rfl
@[simp] theorem State.setKey_key (s : State) (k : Fin 16) (b : Bool) : (s.setKey k b).key = s.key.set k b := rfl
@[simp] theorem State.setKey_fault (s : State) (k : Fin 16) (b : Bool) : (s.setKey k b).fault = s.fault := rfl
@[simp] theorem State.setKey_config (s : State) (k : Fin 16) (b : Bool) : (s.setKey k b).config = s.config := rfl
@[simp] theorem State.setKey_byte (s : State) (k : Fin 16) (b : Bool) (a : Nat) : (s.setKey k b).byte a = s.byte a := rfl
@[simp] theorem State.setKey_draws (s : State) (k : Fin 16) (b : Bool) : (s.setKey k b).draws = s.draws := rfl
@[simp] theorem State.setKey_session (s : State) (k : Fin 16) (b : Bool) : (s.setKey k b).session = s.session := rfl
@[simp] theorem State.setKey_pending (s : State) (k : Fin 16) (b : Bool) : (s.setKey k b).pending = s.pending := rfl
@[simp] theorem State.setKey_reg (s : State) (k : Fin 16) (b : Bool) (z : Reg) : (s.setKey k b).reg z = s.reg z := rfl

/-! ### `State.setFault` -/

@[simp] theorem State.setFault_mem (s : State) (r : Option FaultRecord) : (s.setFault r).mem = s.mem := rfl
@[simp] theorem State.setFault_V (s : State) (r : Option FaultRecord) : (s.setFault r).V = s.V := rfl
@[simp] theorem State.setFault_I (s : State) (r : Option FaultRecord) : (s.setFault r).I = s.I := rfl
@[simp] theorem State.setFault_pc (s : State) (r : Option FaultRecord) : (s.setFault r).pc = s.pc := rfl
@[simp] theorem State.setFault_stack (s : State) (r : Option FaultRecord) : (s.setFault r).stack = s.stack := rfl
@[simp] theorem State.setFault_depth (s : State) (r : Option FaultRecord) : (s.setFault r).depth = s.depth := rfl
@[simp] theorem State.setFault_fb (s : State) (r : Option FaultRecord) : (s.setFault r).fb = s.fb := rfl
@[simp] theorem State.setFault_DT (s : State) (r : Option FaultRecord) : (s.setFault r).DT = s.DT := rfl
@[simp] theorem State.setFault_ST (s : State) (r : Option FaultRecord) : (s.setFault r).ST = s.ST := rfl
@[simp] theorem State.setFault_key (s : State) (r : Option FaultRecord) : (s.setFault r).key = s.key := rfl
@[simp] theorem State.setFault_fault (s : State) (r : Option FaultRecord) : (s.setFault r).fault = r := rfl
@[simp] theorem State.setFault_config (s : State) (r : Option FaultRecord) : (s.setFault r).config = s.config := rfl
@[simp] theorem State.setFault_byte (s : State) (r : Option FaultRecord) (a : Nat) : (s.setFault r).byte a = s.byte a := rfl
@[simp] theorem State.setFault_draws (s : State) (r : Option FaultRecord) : (s.setFault r).draws = s.draws := rfl
@[simp] theorem State.setFault_session (s : State) (r : Option FaultRecord) : (s.setFault r).session = s.session := rfl
@[simp] theorem State.setFault_pending (s : State) (r : Option FaultRecord) : (s.setFault r).pending = s.pending := rfl
@[simp] theorem State.setFault_reg (s : State) (r : Option FaultRecord) (z : Reg) : (s.setFault r).reg z = s.reg z := rfl

/-! ### `State.setDraws` -/

@[simp] theorem State.setDraws_mem (s : State) (n : Nat) : (s.setDraws n).mem = s.mem := rfl
@[simp] theorem State.setDraws_V (s : State) (n : Nat) : (s.setDraws n).V = s.V := rfl
@[simp] theorem State.setDraws_I (s : State) (n : Nat) : (s.setDraws n).I = s.I := rfl
@[simp] theorem State.setDraws_pc (s : State) (n : Nat) : (s.setDraws n).pc = s.pc := rfl
@[simp] theorem State.setDraws_stack (s : State) (n : Nat) : (s.setDraws n).stack = s.stack := rfl
@[simp] theorem State.setDraws_depth (s : State) (n : Nat) : (s.setDraws n).depth = s.depth := rfl
@[simp] theorem State.setDraws_fb (s : State) (n : Nat) : (s.setDraws n).fb = s.fb := rfl
@[simp] theorem State.setDraws_DT (s : State) (n : Nat) : (s.setDraws n).DT = s.DT := rfl
@[simp] theorem State.setDraws_ST (s : State) (n : Nat) : (s.setDraws n).ST = s.ST := rfl
@[simp] theorem State.setDraws_key (s : State) (n : Nat) : (s.setDraws n).key = s.key := rfl
@[simp] theorem State.setDraws_fault (s : State) (n : Nat) : (s.setDraws n).fault = s.fault := rfl
@[simp] theorem State.setDraws_config (s : State) (n : Nat) : (s.setDraws n).config = s.config := rfl
@[simp] theorem State.setDraws_byte (s : State) (n : Nat) (a : Nat) : (s.setDraws n).byte a = s.byte a := rfl
@[simp] theorem State.setDraws_draws (s : State) (n : Nat) : (s.setDraws n).draws = n := rfl
@[simp] theorem State.setDraws_session (s : State) (n : Nat) : (s.setDraws n).session = s.session := rfl
@[simp] theorem State.setDraws_pending (s : State) (n : Nat) : (s.setDraws n).pending = s.pending := rfl
@[simp] theorem State.setDraws_reg (s : State) (n : Nat) (z : Reg) : (s.setDraws n).reg z = s.reg z := rfl

/-! ### `State.setSession` -/

@[simp] theorem State.setSession_mem (s : State) (x : Session) : (s.setSession x).mem = s.mem := rfl
@[simp] theorem State.setSession_V (s : State) (x : Session) : (s.setSession x).V = s.V := rfl
@[simp] theorem State.setSession_I (s : State) (x : Session) : (s.setSession x).I = s.I := rfl
@[simp] theorem State.setSession_pc (s : State) (x : Session) : (s.setSession x).pc = s.pc := rfl
@[simp] theorem State.setSession_stack (s : State) (x : Session) : (s.setSession x).stack = s.stack := rfl
@[simp] theorem State.setSession_depth (s : State) (x : Session) : (s.setSession x).depth = s.depth := rfl
@[simp] theorem State.setSession_fb (s : State) (x : Session) : (s.setSession x).fb = s.fb := rfl
@[simp] theorem State.setSession_DT (s : State) (x : Session) : (s.setSession x).DT = s.DT := rfl
@[simp] theorem State.setSession_ST (s : State) (x : Session) : (s.setSession x).ST = s.ST := rfl
@[simp] theorem State.setSession_key (s : State) (x : Session) : (s.setSession x).key = s.key := rfl
@[simp] theorem State.setSession_fault (s : State) (x : Session) : (s.setSession x).fault = s.fault := rfl
@[simp] theorem State.setSession_config (s : State) (x : Session) : (s.setSession x).config = s.config := rfl
@[simp] theorem State.setSession_byte (s : State) (x : Session) (a : Nat) : (s.setSession x).byte a = s.byte a := rfl
@[simp] theorem State.setSession_draws (s : State) (x : Session) : (s.setSession x).draws = s.draws := rfl
@[simp] theorem State.setSession_session (s : State) (x : Session) : (s.setSession x).session = x := rfl
@[simp] theorem State.setSession_pending (s : State) (x : Session) : (s.setSession x).pending = s.pending := rfl
@[simp] theorem State.setSession_reg (s : State) (x : Session) (z : Reg) : (s.setSession x).reg z = s.reg z := rfl

/-! ### `State.setPending` -/

@[simp] theorem State.setPending_mem (s : State) (ops : List Operation) : (s.setPending ops).mem = s.mem := rfl
@[simp] theorem State.setPending_V (s : State) (ops : List Operation) : (s.setPending ops).V = s.V := rfl
@[simp] theorem State.setPending_I (s : State) (ops : List Operation) : (s.setPending ops).I = s.I := rfl
@[simp] theorem State.setPending_pc (s : State) (ops : List Operation) : (s.setPending ops).pc = s.pc := rfl
@[simp] theorem State.setPending_stack (s : State) (ops : List Operation) : (s.setPending ops).stack = s.stack := rfl
@[simp] theorem State.setPending_depth (s : State) (ops : List Operation) : (s.setPending ops).depth = s.depth := rfl
@[simp] theorem State.setPending_fb (s : State) (ops : List Operation) : (s.setPending ops).fb = s.fb := rfl
@[simp] theorem State.setPending_DT (s : State) (ops : List Operation) : (s.setPending ops).DT = s.DT := rfl
@[simp] theorem State.setPending_ST (s : State) (ops : List Operation) : (s.setPending ops).ST = s.ST := rfl
@[simp] theorem State.setPending_key (s : State) (ops : List Operation) : (s.setPending ops).key = s.key := rfl
@[simp] theorem State.setPending_fault (s : State) (ops : List Operation) : (s.setPending ops).fault = s.fault := rfl
@[simp] theorem State.setPending_config (s : State) (ops : List Operation) : (s.setPending ops).config = s.config := rfl
@[simp] theorem State.setPending_byte (s : State) (ops : List Operation) (a : Nat) : (s.setPending ops).byte a = s.byte a := rfl
@[simp] theorem State.setPending_draws (s : State) (ops : List Operation) : (s.setPending ops).draws = s.draws := rfl
@[simp] theorem State.setPending_session (s : State) (ops : List Operation) : (s.setPending ops).session = s.session := rfl
@[simp] theorem State.setPending_pending (s : State) (ops : List Operation) : (s.setPending ops).pending = ops := rfl
@[simp] theorem State.setPending_reg (s : State) (ops : List Operation) (z : Reg) : (s.setPending ops).reg z = s.reg z := rfl

/-- Two states are equal when every field is. -/
theorem State.ext_fields {s t : State} (h1 : s.mem = t.mem) (h2 : s.V = t.V) (h3 : s.I = t.I) (h4 : s.pc = t.pc)
    (h5 : s.stack = t.stack) (h6 : s.depth = t.depth) (h7 : s.fb = t.fb) (h8 : s.DT = t.DT) (h9 : s.ST = t.ST)
    (h10 : s.key = t.key) (h11 : s.fault = t.fault) (h12 : s.config = t.config) (h13 : s.draws = t.draws)
    (h14 : s.session = t.session) (h15 : s.pending = t.pending) : s = t := by
  cases s; cases t; simp_all

/-! ### `State.store` -/

@[simp] theorem State.store_mem (s : State) (base : Nat) (vs : List Byte) :
    (s.store base vs).mem = storeBlock s.config.font s.mem base vs := rfl
@[simp] theorem State.store_V (s : State) (base : Nat) (vs : List Byte) : (s.store base vs).V = s.V := rfl
@[simp] theorem State.store_I (s : State) (base : Nat) (vs : List Byte) : (s.store base vs).I = s.I := rfl
@[simp] theorem State.store_pc (s : State) (base : Nat) (vs : List Byte) : (s.store base vs).pc = s.pc := rfl
@[simp] theorem State.store_stack (s : State) (base : Nat) (vs : List Byte) : (s.store base vs).stack = s.stack := rfl
@[simp] theorem State.store_depth (s : State) (base : Nat) (vs : List Byte) : (s.store base vs).depth = s.depth := rfl
@[simp] theorem State.store_fb (s : State) (base : Nat) (vs : List Byte) : (s.store base vs).fb = s.fb := rfl
@[simp] theorem State.store_DT (s : State) (base : Nat) (vs : List Byte) : (s.store base vs).DT = s.DT := rfl
@[simp] theorem State.store_ST (s : State) (base : Nat) (vs : List Byte) : (s.store base vs).ST = s.ST := rfl
@[simp] theorem State.store_key (s : State) (base : Nat) (vs : List Byte) : (s.store base vs).key = s.key := rfl
@[simp] theorem State.store_fault (s : State) (base : Nat) (vs : List Byte) : (s.store base vs).fault = s.fault := rfl
@[simp] theorem State.store_config (s : State) (base : Nat) (vs : List Byte) : (s.store base vs).config = s.config := rfl
@[simp] theorem State.store_draws (s : State) (base : Nat) (vs : List Byte) : (s.store base vs).draws = s.draws := rfl
@[simp] theorem State.store_session (s : State) (base : Nat) (vs : List Byte) : (s.store base vs).session = s.session := rfl
@[simp] theorem State.store_pending (s : State) (base : Nat) (vs : List Byte) : (s.store base vs).pending = s.pending := rfl
@[simp] theorem State.store_reg (s : State) (base : Nat) (vs : List Byte) (z : Reg) : (s.store base vs).reg z = s.reg z := rfl

end Sys2Proof.Machine
end

