-- ==== Sys2Proof/Laws/Ops.lean ====
section
/-! SUPPORT. One lemma per shared operation, saying once everything it can do; later proofs cite these and do not unfold
the operation. -/

namespace Sys2Proof.Machine

/-! ### Program counter and fault entry -/

/-- A skip changes `pc` alone. -/
theorem State.skipIf_eq (s : State) (c : Bool) : s.skipIf c = s.setPc (if c then s.pc + 2 else s.pc) := by
  cases c <;> rfl

/-- Fault entry changes the latch alone. -/
theorem raise_eq (cause : FaultCause) (op : Option Word) (addr : Word) (e : Option Nat) (s : State) :
    raise cause op addr e s = s.setFault (some ⟨cause, op, addr, e⟩) := rfl

theorem raiseHere_eq (cause : FaultCause) (i : Instr) (e : Option Nat) (s : State) :
    raiseHere cause i e s = s.setFault (some ⟨cause, some (encode i), s.pc - 2, e⟩) := rfl

/-! ### Call stack -/

/-- Everything a push can do. -/
theorem State.push?_cases (s : State) (v : Word) :
    (s.depth.val = 16 ∧ s.push? v = none) ∨
    ∃ h : s.depth.val < 16, s.push? v = some (s.setStack (s.stack.set s.depth.val v) ⟨s.depth.val + 1, by omega⟩) := by
  unfold State.push?
  by_cases h : s.depth.val < 16
  · exact .inr ⟨h, by simp [h]⟩
  · exact .inl ⟨by omega, by simp [h]⟩

/-- Everything a pop can do. -/
theorem State.pop?_cases (s : State) :
    (s.depth.val = 0 ∧ s.pop? = none) ∨
    ∃ h : 0 < s.depth.val,
      s.pop? = some (s.stack[s.depth.val - 1], s.setStack s.stack ⟨s.depth.val - 1, by omega⟩) := by
  unfold State.pop?
  by_cases h : 0 < s.depth.val
  · exact .inr ⟨h, by simp [h]⟩
  · exact .inl ⟨by omega, by simp [h]⟩

/-! ### Framebuffer -/

@[simp] theorem Framebuffer.pixel_clear (cx : Fin 64) (cy : Fin 32) : Framebuffer.clear.pixel cx cy = false := by
  simp [Framebuffer.pixel, Framebuffer.clear]

/-- A flip changes one pixel. -/
theorem Framebuffer.pixel_flip (f : Framebuffer) (cx : Fin 64) (cy : Fin 32) (a : Fin 64) (b : Fin 32) :
    (f.flip cx cy).pixel a b = if a = cx ∧ b = cy then !f.pixel cx cy else f.pixel a b := by
  simp only [Framebuffer.pixel, Framebuffer.flip, Fin.getElem_fin, Vector.getElem_set]
  by_cases ha : a = cx
  · subst ha
    by_cases hb : b = cy
    · subst hb; simp
    · have : ¬ (cy.val = b.val) := fun h => hb (Fin.ext h.symm)
      simp [hb, this]
  · have : ¬ (cx.val = a.val) := fun h => ha (Fin.ext h.symm)
    simp [ha, this]

/-- Two framebuffers are equal when every pixel is. -/
theorem Framebuffer.ext_pixel {f g : Framebuffer} (h : ∀ cx cy, f.pixel cx cy = g.pixel cx cy) : f = g := by
  apply Vector.ext
  intro i hi
  apply Vector.ext
  intro j hj
  exact h ⟨i, hi⟩ ⟨j, hj⟩

/-! ### Operands -/

/-- Everything reading a register as a key code can do. -/
theorem keyCode?_cases (v : Byte) :
    (15 < v.toNat ∧ keyCode? v = none) ∨ ∃ h : v.toNat < 16, keyCode? v = some ⟨v.toNat, h⟩ := by
  unfold keyCode?
  by_cases h : v.toNat < 16
  · exact .inr ⟨h, by simp [h]⟩
  · exact .inl ⟨by omega, by simp [h]⟩

@[simp] theorem State.ea_zero (s : State) : s.ea 0 = s.I.toNat := rfl

theorem State.dataFault_eq (s : State) (n : Nat) :
    s.dataFault n = if n = 0 ∨ s.I.toNat + n ≤ 0x1000 then none else some (max s.I.toNat 0x1000) := by
  rw [State.dataFault, blockFault_eq]; rfl

@[simp] theorem State.regsUpTo_length (s : State) (x : Reg) : (s.regsUpTo x).length = x.val + 1 := by
  simp [State.regsUpTo]

theorem State.regsUpTo_getElem (s : State) (x : Reg) (k : Nat) (h : k < (s.regsUpTo x).length) :
    (s.regsUpTo x)[k] = s.reg ⟨k, by simp at h; omega⟩ := by
  simp [State.regsUpTo, State.reg]

theorem State.loadedV_getElem (s : State) (x : Reg) (base : Nat) (z : Reg) :
    (s.loadedV x base)[z] = if z.val ≤ x.val then s.byte (base + z.val) else s.reg z := by
  simp [State.loadedV, State.reg]

@[simp] theorem decimalDigits_length (v : Byte) : (decimalDigits v).length = 3 := rfl

theorem Byte.toNat_zext16 (b : Byte) : b.zext16.toNat = b.toNat := by
  have := b.isLt
  simp only [Byte.zext16, BitVec.toNat_setWidth]; omega

theorem toNat_zextNnn (nnn : BitVec 12) : (zextNnn nnn).toNat = nnn.toNat := by
  have := nnn.isLt
  simp only [zextNnn, BitVec.toNat_setWidth]; omega

/-! ### The two writes of a flag-writing instruction -/

@[simp] theorem flagByte_true : flagByte true = 1 := rfl
@[simp] theorem flagByte_false : flagByte false = 0 := rfl

/-- Result, then flag: `VF` ends as the flag whatever the destination. -/
theorem writeResultThenFlag_reg (x : Reg) (result : Byte) (flag : Bool) (s : State) (z : Reg) :
    (writeResultThenFlag x result flag s).reg z =
      if z = vf then flagByte flag else if z = x then result else s.reg z := by
  simp [writeResultThenFlag]

/-- The V registers are all that the two writes change. -/
theorem writeResultThenFlag_frame (x : Reg) (result : Byte) (flag : Bool) (s : State) :
    writeResultThenFlag x result flag s = s.setV (writeResultThenFlag x result flag s).V := rfl

/-- A shift's writes: `VF_DEST_ORDER` matters only when the destination is `VF`. -/
theorem writeShift_reg (x : Reg) (result : Byte) (flag : Bool) (s : State) (z : Reg) :
    (writeShift x result flag s).reg z =
      if z = vf then (if x = vf ∧ s.config.vfDestOrder = .tableOrder then result else flagByte flag)
      else if z = x then result else s.reg z := by
  unfold writeShift
  cases h : s.config.vfDestOrder <;> simp only [State.setReg_reg] <;>
    by_cases hz : z = vf <;> by_cases hx : x = vf <;> simp_all
  all_goals (intro h; exact absurd h.symm hx)

theorem writeShift_frame (x : Reg) (result : Byte) (flag : Bool) (s : State) :
    writeShift x result flag s = s.setV (writeShift x result flag s).V := by
  unfold writeShift; cases s.config.vfDestOrder <;> rfl

/-! ### The cycle -/

/-- Everything a cycle can do. -/
theorem cycle_cases (s : State) :
    (∃ r, s.fault = some r ∧ cycle s = .fault (.engineStopped r)) ∨
    (s.fault = none ∧ 0xFFE < s.pc.toNat ∧
      cycle s = .next (raise .addressOutOfRange none s.pc (some (max s.pc.toNat 0x1000)) (s.setSession .running))) ∨
    (s.fault = none ∧ s.pc.toNat ≤ 0xFFE ∧
      cycle s = decodeExecute (wordOfBytes (s.byte s.pc.toNat) (s.byte (s.pc.toNat + 1))) s.pc (advance s)) := by
  unfold cycle
  cases hf : s.fault with
  | some r => exact .inl ⟨r, rfl, rfl⟩
  | none =>
    right
    rcases memRead16_cases s.config.font s.mem s.pc.toNat with ⟨h, hr⟩ | ⟨h, hr⟩
    · exact .inr ⟨rfl, h, by simp [fetch, hr, State.byte]⟩
    · exact .inl ⟨rfl, h, by simp [fetch, hr]⟩

/-- Decode and execute: an illegal word raises its fault, a legal one runs its instruction. -/
theorem decodeExecute_cases (op a : Word) (s : State) :
    (∃ r, decodeWord op = .error r ∧ decodeExecute op a s = .next (raise .illegalOpcode (some op) a none s)) ∨
    (∃ i, decodeWord op = .ok i ∧ decodeExecute op a s = exec i s) := by
  unfold decodeExecute
  cases h : decodeWord op with
  | error r => exact .inl ⟨r, rfl, rfl⟩
  | ok i => exact .inr ⟨i, rfl, rfl⟩

/-! ### Operations of the interface as steps -/

/-- Everything an operation can do that has a meaning only while no fault is latched. -/
theorem unlessFaulted_cases (s t : State) :
    (s.fault = none ∧ unlessFaulted s t = .next t) ∨
    ∃ r, s.fault = some r ∧ unlessFaulted s t = .refused .operationAfterFault := by
  unfold unlessFaulted
  cases s.fault with
  | none => exact .inl ⟨rfl, rfl⟩
  | some r => exact .inr ⟨r, rfl, rfl⟩

theorem unlessFaulted_of_none {s : State} (h : s.fault = none) (t : State) : unlessFaulted s t = .next t := by
  simp only [unlessFaulted, h]

/-- A load in the boot order. -/
theorem bootLoad_of_constructed {s : State} (h : s.session = .constructed) (hf : s.fault = none) (bytes : List Byte) :
    bootLoad bytes s = .next ((loadROM bytes s).stateOr s) := by
  simp only [bootLoad, h, unlessFaulted_of_none hf]

/-- A load out of the boot order. -/
theorem bootLoad_of_not_constructed {s : State} (h : s.session ≠ .constructed) (bytes : List Byte) :
    bootLoad bytes s = .refused .romLoadOutOfOrder := by
  unfold bootLoad
  cases hs : s.session with
  | constructed => exact absurd hs h
  | loaded => rfl
  | running => rfl

/-- Everything `LoadROM` can do. -/
theorem loadROM_cases (bytes : List Byte) (s : State) :
    (bytes.length ≤ 0xE00 ∧ loadROM bytes s = .accepted ((s.store Config.progBase bytes).setSession .loaded)) ∨
    (0xE00 < bytes.length ∧ loadROM bytes s = .rejected .romTooLarge) := by
  unfold loadROM
  rcases Nat.lt_or_ge Config.romMax bytes.length with h | h
  · exact .inr ⟨h, if_pos h⟩
  · exact .inl ⟨h, if_neg (Nat.not_lt.mpr h)⟩

end Sys2Proof.Machine
end

