-- ==== Sys2Proof/Laws/Exec.lean ====
section
/-! SUPPORT. One lemma per meaning that can fault, saying once everything it can do, and that every meaning takes a next
state. -/

namespace Sys2Proof.Machine

theorem execRet_cases (s : State) :
    (s.depth.val = 0 ∧ execRet s = .next (raiseHere .stackUnderflow .ret none s)) ∨
    ∃ h : 0 < s.depth.val,
      execRet s = .next ((s.setStack s.stack ⟨s.depth.val - 1, by omega⟩).setPc s.stack[s.depth.val - 1]) := by
  rcases s.pop?_cases with ⟨h, e⟩ | ⟨h, e⟩
  · exact .inl ⟨h, by simp only [execRet, e]⟩
  · exact .inr ⟨h, by simp only [execRet, e]⟩

theorem execCall_cases (nnn : BitVec 12) (s : State) :
    (s.depth.val = 16 ∧ execCall nnn s = .next (raiseHere .stackOverflow (.call nnn) none s)) ∨
    ∃ h : s.depth.val < 16, execCall nnn s =
      .next ((s.setStack (s.stack.set s.depth.val s.pc) ⟨s.depth.val + 1, by omega⟩).setPc (zextNnn nnn)) := by
  rcases s.push?_cases s.pc with ⟨h, e⟩ | ⟨h, e⟩
  · exact .inl ⟨h, by simp only [execCall, e]⟩
  · exact .inr ⟨h, by simp only [execCall, e]⟩

/-- The range check of `n` bytes from `I` on has these two outcomes. -/
theorem State.dataFault_cases (s : State) (n : Nat) :
    (0 < n ∧ 0x1000 < s.I.toNat + n ∧ s.dataFault n = some (max s.I.toNat 0x1000)) ∨
    ((n = 0 ∨ s.I.toNat + n ≤ 0x1000) ∧ s.dataFault n = none) := by
  rw [State.dataFault_eq]
  split
  · exact .inr ⟨‹_›, rfl⟩
  · exact .inl ⟨by omega, by omega, rfl⟩

theorem execLdBVx_cases (x : Reg) (s : State) :
    (0x1000 < s.I.toNat + 3 ∧
      execLdBVx x s = .next (raiseHere .addressOutOfRange (.ldBVx x) (some (max s.I.toNat 0x1000)) s)) ∨
    (s.I.toNat + 3 ≤ 0x1000 ∧
      execLdBVx x s = .next (s.store s.I.toNat (decimalDigits (s.reg x)))) := by
  rcases s.dataFault_cases 3 with ⟨-, h, e⟩ | ⟨h, e⟩
  · exact .inl ⟨h, by simp only [execLdBVx, e]⟩
  · exact .inr ⟨by omega, by simp only [execLdBVx, e, State.ea_zero]⟩

theorem execLdMemVx_cases (x : Reg) (s : State) :
    (0x1000 < s.I.toNat + (x.val + 1) ∧
      execLdMemVx x s = .next (raiseHere .addressOutOfRange (.ldMemVx x) (some (max s.I.toNat 0x1000)) s)) ∨
    (s.I.toNat + (x.val + 1) ≤ 0x1000 ∧
      execLdMemVx x s = .next (s.store s.I.toNat (s.regsUpTo x))) := by
  rcases s.dataFault_cases (x.val + 1) with ⟨-, h, e⟩ | ⟨h, e⟩
  · exact .inl ⟨h, by simp only [execLdMemVx, e]⟩
  · exact .inr ⟨by omega, by simp only [execLdMemVx, e, State.ea_zero]⟩

theorem execLdVxMem_cases (x : Reg) (s : State) :
    (0x1000 < s.I.toNat + (x.val + 1) ∧
      execLdVxMem x s = .next (raiseHere .addressOutOfRange (.ldVxMem x) (some (max s.I.toNat 0x1000)) s)) ∨
    (s.I.toNat + (x.val + 1) ≤ 0x1000 ∧ execLdVxMem x s = .next (s.setV (s.loadedV x s.I.toNat))) := by
  rcases s.dataFault_cases (x.val + 1) with ⟨-, h, e⟩ | ⟨h, e⟩
  · exact .inl ⟨h, by simp only [execLdVxMem, e]⟩
  · exact .inr ⟨by omega, by simp only [execLdVxMem, e, State.ea_zero]⟩

theorem execDrw_cases (x y : Reg) (n : Fin 16) (s : State) :
    (0 < n.val ∧ 0x1000 < s.I.toNat + n.val ∧
      execDrw x y n s = .next (raiseHere .addressOutOfRange (.drw x y n) (some (max s.I.toNat 0x1000)) s)) ∨
    ((n.val = 0 ∨ s.I.toNat + n.val ≤ 0x1000) ∧
      execDrw x y n s = .next ((s.setFb (drawn x y n s).1).setReg vf (flagByte (drawn x y n s).2))) := by
  rcases s.dataFault_cases n.val with ⟨h0, h, e⟩ | ⟨h, e⟩
  · exact .inl ⟨h0, h, by simp only [execDrw, e]⟩
  · exact .inr ⟨h, by simp only [execDrw, e]⟩

theorem execSkp_cases (x : Reg) (s : State) :
    (15 < (s.reg x).toNat ∧
      execSkp x s = .next (raiseHere .keyIndexOutOfRange (.skp x) (some (s.reg x).toNat) s)) ∨
    ∃ h : (s.reg x).toNat < 16,
      execSkp x s = .next (s.setPc (if s.key[(s.reg x).toNat] = true then s.pc + 2 else s.pc)) := by
  rcases keyCode?_cases (s.reg x) with ⟨h, e⟩ | ⟨h, e⟩
  · exact .inl ⟨h, by simp only [execSkp, e]⟩
  · exact .inr ⟨h, by simp only [execSkp, e, State.skipIf_eq]; rfl⟩

theorem execSknp_cases (x : Reg) (s : State) :
    (15 < (s.reg x).toNat ∧
      execSknp x s = .next (raiseHere .keyIndexOutOfRange (.sknp x) (some (s.reg x).toNat) s)) ∨
    ∃ h : (s.reg x).toNat < 16,
      execSknp x s = .next (s.setPc (if s.key[(s.reg x).toNat] = true then s.pc else s.pc + 2)) := by
  rcases keyCode?_cases (s.reg x) with ⟨h, e⟩ | ⟨h, e⟩
  · exact .inl ⟨h, by simp only [execSknp, e]⟩
  · refine .inr ⟨h, ?_⟩
    simp only [execSknp, e, State.skipIf_eq, Fin.getElem_fin]
    cases s.key[(s.reg x).toNat] <;> rfl

/-- The least pressed key, where one is pressed. -/
theorem leastPressed_cases (key : Vector Bool 16) :
    ((∀ k : Fin 16, key[k] = false) ∧ leastPressed key = none) ∨
    ∃ k : Fin 16, key[k] = true ∧ (∀ j : Fin 16, j < k → key[j] = false) ∧ leastPressed key = some k := by
  cases h : leastPressed key with
  | none =>
    left
    refine ⟨fun k => ?_, rfl⟩
    have := List.find?_eq_none.mp h k (List.mem_finRange k)
    simpa using this
  | some k =>
    right
    obtain ⟨hk, i, hi, hget, hlt⟩ := List.find?_eq_some_iff_getElem.mp h
    refine ⟨k, hk, fun j hj => ?_, rfl⟩
    have hik : i = k.val := by simpa [Fin.ext_iff] using hget
    have := hlt j.val (by rw [hik]; exact hj)
    simpa using this

theorem execLdVxK_cases (x : Reg) (s : State) :
    ((∀ k : Fin 16, s.key[k] = false) ∧ execLdVxK x s = .next (s.setPc (s.pc - 2))) ∨
    ∃ k : Fin 16, s.key[k] = true ∧ (∀ j : Fin 16, j < k → s.key[j] = false) ∧
      execLdVxK x s = .next (s.setReg x (BitVec.ofNat 8 k.val)) := by
  rcases leastPressed_cases s.key with ⟨h, e⟩ | ⟨k, h1, h2, e⟩
  · exact .inl ⟨h, by simp only [execLdVxK, e]⟩
  · exact .inr ⟨k, h1, h2, by simp only [execLdVxK, e]⟩

/-- Every instruction takes a next state, a fault among them: no meaning stops. -/
theorem exec_next (i : Instr) (s : State) : ∃ t, exec i s = .next t := by
  cases i
  case ret => rcases execRet_cases s with ⟨-, e⟩ | ⟨_, e⟩ <;> exact ⟨_, e⟩
  case call nnn => rcases execCall_cases nnn s with ⟨-, e⟩ | ⟨_, e⟩ <;> exact ⟨_, e⟩
  case drw x y n => rcases execDrw_cases x y n s with ⟨-, -, e⟩ | ⟨-, e⟩ <;> exact ⟨_, e⟩
  case skp x => rcases execSkp_cases x s with ⟨-, e⟩ | ⟨_, e⟩ <;> exact ⟨_, e⟩
  case sknp x => rcases execSknp_cases x s with ⟨-, e⟩ | ⟨_, e⟩ <;> exact ⟨_, e⟩
  case ldVxK x => rcases execLdVxK_cases x s with ⟨-, e⟩ | ⟨_, -, -, e⟩ <;> exact ⟨_, e⟩
  case ldBVx x => rcases execLdBVx_cases x s with ⟨-, e⟩ | ⟨-, e⟩ <;> exact ⟨_, e⟩
  case ldMemVx x => rcases execLdMemVx_cases x s with ⟨-, e⟩ | ⟨-, e⟩ <;> exact ⟨_, e⟩
  case ldVxMem x => rcases execLdVxMem_cases x s with ⟨-, e⟩ | ⟨-, e⟩ <;> exact ⟨_, e⟩
  all_goals exact ⟨_, rfl⟩

end Sys2Proof.Machine
end

