-- ==== Sys2Proof/Laws/PerInstr.lean ====
section
/-! SUPPORT. Laws for all instructions, one lemma per constructor. `EncodesItsFamily`: the top nibble of an instruction's
word is its family (spec 30_encoding.md R91, R92). -/

namespace Sys2Proof.Laws.EncodesItsFamily

/-- The top nibble the pattern column of R94 gives an instruction. -/
def family : Instr → Fin 16
  | .cls | .ret | .sys _ => 0x0
  | .jp _ => 0x1
  | .call _ => 0x2
  | .seVxKk _ _ => 0x3
  | .sneVxKk _ _ => 0x4
  | .seVxVy _ _ => 0x5
  | .ldVxKk _ _ => 0x6
  | .addVxKk _ _ => 0x7
  | .ldVxVy _ _ | .orVxVy _ _ | .andVxVy _ _ | .xorVxVy _ _ | .addVxVy _ _ | .subVxVy _ _ | .shrVx _ _
  | .subnVxVy _ _ | .shlVx _ _ => 0x8
  | .sneVxVy _ _ => 0x9
  | .ldI _ => 0xA
  | .jpV0 _ => 0xB
  | .rnd _ _ => 0xC
  | .drw _ _ _ => 0xD
  | .skp _ | .sknp _ => 0xE
  | .ldVxDT _ | .ldVxK _ | .ldDTVx _ | .ldSTVx _ | .addIVx _ | .ldFVx _ | .ldBVx _ | .ldMemVx _ | .ldVxMem _ => 0xF

def Statement (i : Instr) : Prop := fieldTop (encode i) = family i

theorem cls : Statement .cls := fieldTop_encNnn _ _
theorem ret : Statement .ret := fieldTop_encNnn _ _
theorem sys (nnn : BitVec 12) : Statement (.sys nnn) := fieldTop_encNnn _ _
theorem jp (nnn : BitVec 12) : Statement (.jp nnn) := fieldTop_encNnn _ _
theorem call (nnn : BitVec 12) : Statement (.call nnn) := fieldTop_encNnn _ _
theorem seVxKk (x : Reg) (kk : Byte) : Statement (.seVxKk x kk) := fieldTop_encXkk _ _ _
theorem sneVxKk (x : Reg) (kk : Byte) : Statement (.sneVxKk x kk) := fieldTop_encXkk _ _ _
theorem seVxVy (x y : Reg) : Statement (.seVxVy x y) := fieldTop_encXyn _ _ _ _
theorem ldVxKk (x : Reg) (kk : Byte) : Statement (.ldVxKk x kk) := fieldTop_encXkk _ _ _
theorem addVxKk (x : Reg) (kk : Byte) : Statement (.addVxKk x kk) := fieldTop_encXkk _ _ _
theorem ldVxVy (x y : Reg) : Statement (.ldVxVy x y) := fieldTop_encXyn _ _ _ _
theorem orVxVy (x y : Reg) : Statement (.orVxVy x y) := fieldTop_encXyn _ _ _ _
theorem andVxVy (x y : Reg) : Statement (.andVxVy x y) := fieldTop_encXyn _ _ _ _
theorem xorVxVy (x y : Reg) : Statement (.xorVxVy x y) := fieldTop_encXyn _ _ _ _
theorem addVxVy (x y : Reg) : Statement (.addVxVy x y) := fieldTop_encXyn _ _ _ _
theorem subVxVy (x y : Reg) : Statement (.subVxVy x y) := fieldTop_encXyn _ _ _ _
theorem shrVx (x y : Reg) : Statement (.shrVx x y) := fieldTop_encXyn _ _ _ _
theorem subnVxVy (x y : Reg) : Statement (.subnVxVy x y) := fieldTop_encXyn _ _ _ _
theorem shlVx (x y : Reg) : Statement (.shlVx x y) := fieldTop_encXyn _ _ _ _
theorem sneVxVy (x y : Reg) : Statement (.sneVxVy x y) := fieldTop_encXyn _ _ _ _
theorem ldI (nnn : BitVec 12) : Statement (.ldI nnn) := fieldTop_encNnn _ _
theorem jpV0 (nnn : BitVec 12) : Statement (.jpV0 nnn) := fieldTop_encNnn _ _
theorem rnd (x : Reg) (kk : Byte) : Statement (.rnd x kk) := fieldTop_encXkk _ _ _
theorem drw (x y : Reg) (n : Fin 16) : Statement (.drw x y n) := fieldTop_encXyn _ _ _ _
theorem skp (x : Reg) : Statement (.skp x) := fieldTop_encXkk _ _ _
theorem sknp (x : Reg) : Statement (.sknp x) := fieldTop_encXkk _ _ _
theorem ldVxDT (x : Reg) : Statement (.ldVxDT x) := fieldTop_encXkk _ _ _
theorem ldVxK (x : Reg) : Statement (.ldVxK x) := fieldTop_encXkk _ _ _
theorem ldDTVx (x : Reg) : Statement (.ldDTVx x) := fieldTop_encXkk _ _ _
theorem ldSTVx (x : Reg) : Statement (.ldSTVx x) := fieldTop_encXkk _ _ _
theorem addIVx (x : Reg) : Statement (.addIVx x) := fieldTop_encXkk _ _ _
theorem ldFVx (x : Reg) : Statement (.ldFVx x) := fieldTop_encXkk _ _ _
theorem ldBVx (x : Reg) : Statement (.ldBVx x) := fieldTop_encXkk _ _ _
theorem ldMemVx (x : Reg) : Statement (.ldMemVx x) := fieldTop_encXkk _ _ _
theorem ldVxMem (x : Reg) : Statement (.ldVxMem x) := fieldTop_encXkk _ _ _

end Sys2Proof.Laws.EncodesItsFamily
end

