-- ==== Sys2Proof/Tests/Slice0.lean ====
section
/-! SUPPORT. Tests and witnesses. Expected results are the spec's: the source's worked examples S1 to S12 and the derived
vectors V-F, V-A, V-I, V-D, V-K, V-T, V-R and programs P of 95_test_vectors.md, named in each docstring, and the words of
30_encoding.md. A `witness_` theorem shows states and operands that meet the hypotheses of the obligation it is named
after, at boundary values of each clause. -/

namespace Sys2Proof.Tests

open Sys2Proof Sys2Proof.Machine

/-- Whether an outcome is a next state with a property. -/
def after (r : Result) (p : State → Bool) : Bool :=
  match r with
  | .next t => p t
  | .fault _ | .refused _ => false

/-- Whether an outcome is the refusal `q`. -/
def refuses (r : Result) (q : Refusal) : Bool :=
  match r with
  | .refused x => x == q
  | .next _ | .fault _ => false

/-- The reset state changed by `f`, with a word where the next step fetches. -/
def placed (w : Nat) (f : State → State) : State := (f State.reset).withFetchWord 16 w

/-- Whether one step on that state leads to a state with a property. -/
def runs (w : Nat) (f : State → State) (p : State → Bool) : Bool := after (step (placed w f)) p

/-- The reset state in the execute step of a word at 0x200. -/
def ready : State := State.reset.setPc 0x202

/-- A record latched for a word at 0x200. -/
def latched (t : State) (cause : FaultCause) (op : Word) (e : Option Nat) : Bool :=
  t.fault == some ⟨cause, some op, 0x200, e⟩ && t.pc == 0x202

/-! ### Well-formedness: the only ill-formed terms are the two exact matches of row 3 -/

theorem test_sys_of_cls_is_refused : WellFormed (.sys 0x0E0) = false := by decide
theorem test_sys_of_ret_is_refused : WellFormed (.sys 0x0EE) = false := by decide
theorem test_neighbours_are_well_formed :
    WellFormed (.sys 0x0E1) = true ∧ WellFormed (.sys 0x0EF) = true ∧ WellFormed .cls = true := by decide

/-! ### Decoding: one word or more of every row, written from the patterns of R94 -/

theorem test_decode_control : decodeWord 0x00EE = .ok .ret ∧ decodeWord 0x0000 = .ok (.sys 0x000) ∧
    decodeWord 0x00E1 = .ok (.sys 0x0E1) ∧ decodeWord 0x0FFF = .ok (.sys 0xFFF) ∧
    decodeWord 0x1ABC = .ok (.jp 0xABC) ∧ decodeWord 0x220A = .ok (.call 0x20A) ∧
    decodeWord 0xBFFE = .ok (.jpV0 0xFFE) := by decide

theorem test_decode_skips : decodeWord 0x3A42 = .ok (.seVxKk 0xA 0x42) ∧ decodeWord 0x4A42 = .ok (.sneVxKk 0xA 0x42) ∧
    decodeWord 0x5AB0 = .ok (.seVxVy 0xA 0xB) ∧ decodeWord 0x9AB0 = .ok (.sneVxVy 0xA 0xB) := by decide

theorem test_decode_immediate : decodeWord 0x6F7B = .ok (.ldVxKk 0xF 0x7B) ∧
    decodeWord 0x71FF = .ok (.addVxKk 0x1 0xFF) ∧ decodeWord 0xC30F = .ok (.rnd 0x3 0x0F) := by decide

theorem test_decode_registers : decodeWord 0x8120 = .ok (.ldVxVy 0x1 0x2) ∧ decodeWord 0x8121 = .ok (.orVxVy 0x1 0x2) ∧
    decodeWord 0x8122 = .ok (.andVxVy 0x1 0x2) ∧ decodeWord 0x8123 = .ok (.xorVxVy 0x1 0x2) ∧
    decodeWord 0x8344 = .ok (.addVxVy 0x3 0x4) ∧ decodeWord 0x8125 = .ok (.subVxVy 0x1 0x2) ∧
    decodeWord 0x8106 = .ok (.shrVx 0x1 0x0) ∧ decodeWord 0x8127 = .ok (.subnVxVy 0x1 0x2) ∧
    decodeWord 0x810E = .ok (.shlVx 0x1 0x0) := by decide

theorem test_decode_index : decodeWord 0xA300 = .ok (.ldI 0x300) ∧ decodeWord 0xF21E = .ok (.addIVx 0x2) ∧
    decodeWord 0xF429 = .ok (.ldFVx 0x4) ∧ decodeWord 0xF133 = .ok (.ldBVx 0x1) ∧
    decodeWord 0xF155 = .ok (.ldMemVx 0x1) ∧ decodeWord 0xF265 = .ok (.ldVxMem 0x2) := by decide

theorem test_decode_display : decodeWord 0x00E0 = .ok .cls ∧ decodeWord 0xD125 = .ok (.drw 0x1 0x2 0x5) := by decide

theorem test_decode_keys_timers : decodeWord 0xE59E = .ok (.skp 0x5) ∧ decodeWord 0xE5A1 = .ok (.sknp 0x5) ∧
    decodeWord 0xF30A = .ok (.ldVxK 0x3) ∧ decodeWord 0xF407 = .ok (.ldVxDT 0x4) ∧
    decodeWord 0xF315 = .ok (.ldDTVx 0x3) ∧ decodeWord 0xF318 = .ok (.ldSTVx 0x3) := by decide

/-- V-E4 to V-E8. -/
theorem test_decode_illegal : decodeWord 0x5121 = .error .illegal5 ∧ decodeWord 0x8128 = .error .illegal8 ∧
    decodeWord 0x812F = .error .illegal8 ∧ decodeWord 0x9121 = .error .illegal9 ∧ decodeWord 0xE100 = .error .illegalE ∧
    decodeWord 0xF100 = .error .illegalF ∧ decodeWord 0xFFFF = .error .illegalF ∧
    decodeWord 0xF075 = .error .illegalF := by decide

/-- R103: `ADD V3, V4` is `0x8344`, bytes `83 44`. -/
theorem test_encode_bytes : encode (.addVxVy 3 4) = 0x8344 ∧ encodeBytes (.addVxVy 3 4) = [0x83, 0x44] ∧
    decodeTableWord 16 0x8344 = some (.addVxVy 3 4) := by decide

/-! ### Reset and the cycle -/

/-- V-R1. -/
theorem test_reset_font : (List.range 5).map State.reset.byte = [0xF0, 0x90, 0x90, 0x90, 0xF0] ∧
    (List.range 5).map (fun k => State.reset.byte (0x4B + k)) = [0xF0, 0x80, 0xF0, 0x80, 0x80] ∧
    State.reset.byte 0x50 = 0 := by decide

/-- R36: glyph 8 at 0x028. -/
theorem test_font_glyph_eight :
    (List.range 5).map (fun k => State.reset.byte (0x28 + k)) = [0xF0, 0x90, 0xF0, 0x90, 0xF0] := by decide

/-- The reset state of a machine whose `FONT` is 80 bytes 0x11 (R6, R36). -/
def otherFont : State := resetUnder { Config.Params.decided with font := Vector.replicate 80 0x11 }

/-- R36, R40: `Reset` gives the setting's own font, over a byte that a store put there. -/
theorem test_reset_under_another_font : otherFont.byte 0 = 0x11 ∧ otherFont.byte 0x4F = 0x11 ∧ otherFont.byte 0x50 = 0 ∧
    after (step ((otherFont.store 4 [2, 4, 1]).setPending [.reset])) (fun t => t.byte 4 == 0x11 && t.mem == []) = true := by
  decide

/-- P6, V-E1: with nothing loaded the first cycle faults on 0x0000. -/
theorem test_cycle_with_nothing_loaded :
    after (step State.reset) (fun t => latched t .illegalOpcode 0x0000 none) = true := by decide

/-- V-E5, V-E7. -/
theorem test_illegal_words : runs 0x8128 id (fun t => latched t .illegalOpcode 0x8128 none) = true ∧
    runs 0xFFFF id (fun t => latched t .illegalOpcode 0xFFFF none) = true := by decide

/-- V-F13: an odd fetch. -/
theorem test_odd_fetch : runs 0x1234 (fun s => s.setPc 0x201) (fun t => t.pc == 0x234) = true := by decide

/-- V-F14, V-F15. -/
theorem test_fetch_faults :
    after (step (State.reset.setPc 0xFFF))
      (fun t => t.fault == some ⟨.addressOutOfRange, none, 0xFFF, some 0x1000⟩ && t.pc == 0xFFF) = true ∧
    after (step (State.reset.setPc 0x1000))
      (fun t => t.fault == some ⟨.addressOutOfRange, none, 0x1000, some 0x1000⟩ && t.pc == 0x1000) = true := by decide

/-- V-F16: the high byte is at the lower address. -/
theorem test_byte_order : runs 0x60AB id (fun t => t.reg 0 == 0xAB) = true ∧
    (placed 0x60AB id).byte 0x200 = 0x60 := by decide

/-! ### Control transfer -/

/-- V-F1. -/
theorem test_jp : runs 0x1ABC id (fun t => t.pc == 0xABC) = true := by decide

/-- V-E2. -/
theorem test_sys : runs 0x0123 id (fun t => latched t .illegalOpcode 0x0123 none) = true := by decide

/-- V-F3. -/
theorem test_call_sixteenth : runs 0x2345 (fun s => s.setStack s.stack 15)
    (fun t => t.stack[15] == 0x202 && t.depth == 16 && t.pc == 0x345) = true := by decide

/-- V-F4. -/
theorem test_call_seventeenth : runs 0x2345 (fun s => s.setStack s.stack 16)
    (fun t => latched t .stackOverflow 0x2345 none && t.depth == 16) = true := by decide

/-- S7, its second cycle. -/
theorem test_ret : runs 0x00EE (fun s => (s.setPc 0x204).setStack (s.stack.set 0 0x202) 1)
    (fun t => t.pc == 0x202 && t.depth == 0 && t.stack[0] == 0x202) = true := by decide

/-- V-F5. -/
theorem test_ret_empty : runs 0x00EE id (fun t => latched t .stackUnderflow 0x00EE none && t.depth == 0) = true := by decide

/-- V-F6. -/
theorem test_se_byte : runs 0x3A42 (fun s => (s.setPc 0x300).setReg 0xA 0x42) (fun t => t.pc == 0x304) = true ∧
    runs 0x3A42 (fun s => (s.setPc 0x300).setReg 0xA 0x43) (fun t => t.pc == 0x302) = true := by decide

/-- V-F7. -/
theorem test_sne_byte : runs 0x4A42 (fun s => (s.setPc 0x300).setReg 0xA 0x42) (fun t => t.pc == 0x302) = true ∧
    runs 0x4A42 (fun s => (s.setPc 0x300).setReg 0xA 0x43) (fun t => t.pc == 0x304) = true := by decide

/-- V-F8. -/
theorem test_se_register : runs 0x5AB0 (fun s => (s.setReg 0xA 7).setReg 0xB 7) (fun t => t.pc == 0x204) = true ∧
    runs 0x5AB0 (fun s => (s.setReg 0xA 7).setReg 0xB 8) (fun t => t.pc == 0x202) = true := by decide

/-- V-F9. -/
theorem test_sne_register : runs 0x9AB0 (fun s => (s.setReg 0xA 7).setReg 0xB 8) (fun t => t.pc == 0x204) = true ∧
    runs 0x9AA0 (fun s => s.setReg 0xA 7) (fun t => t.pc == 0x202) = true := by decide

/-- V-F11: no reduction. -/
theorem test_jp_v0 : runs 0xBFFF (fun s => s.setReg 0 0xFF) (fun t => t.pc == 0x10FE) = true := by decide

/-- V-F12: a skip past the end of memory. -/
theorem test_skip_past_the_end : runs 0x3000 (fun s => s.setPc 0xFFE) (fun t => t.pc == 0x1002) = true := by decide

/-! ### Arithmetic -/

/-- V-A1. -/
theorem test_ld_byte : runs 0x6F7B id (fun t => t.reg vf == 0x7B) = true := by decide

/-- V-A2, V-A3. -/
theorem test_add_byte :
    runs 0x7101 (fun s => (s.setReg 1 0xFF).setReg vf 0x55) (fun t => t.reg 1 == 0 && t.reg vf == 0x55) = true ∧
    runs 0x7F02 (fun s => s.setReg vf 0xFF) (fun t => t.reg vf == 0x01) = true := by decide

/-- V-A4. -/
theorem test_ld_register : runs 0x8120 (fun s => (s.setReg 1 1).setReg 2 0x99)
    (fun t => t.reg 1 == 0x99 && t.reg 2 == 0x99) = true := by decide

/-- V-A5. -/
theorem test_or : runs 0x8121 (fun s => ((s.setReg 1 0xF0).setReg 2 0x0F).setReg vf 7)
    (fun t => t.reg 1 == 0xFF && t.reg vf == 7) = true := by decide

/-- V-A6. -/
theorem test_and : runs 0x8122 (fun s => (s.setReg 1 0xF0).setReg 2 0x3C) (fun t => t.reg 1 == 0x30) = true := by decide

/-- V-A7. -/
theorem test_xor : runs 0x8123 (fun s => (s.setReg 1 0xF0).setReg 2 0x3C) (fun t => t.reg 1 == 0xCC) = true ∧
    runs 0x8113 (fun s => s.setReg 1 0xF0) (fun t => t.reg 1 == 0) = true := by decide

/-- S1. -/
theorem test_add : runs 0x8124 (fun s => (s.setReg 1 255).setReg 2 127) (fun t => t.reg 1 == 126 && t.reg vf == 1) = true ∧
    runs 0x8124 (fun s => (s.setReg 1 128).setReg 2 127) (fun t => t.reg 1 == 255 && t.reg vf == 0) = true := by decide

/-- V-A11, V-A12: `VF` as operand and as destination. -/
theorem test_add_vf : runs 0x81F4 (fun s => (s.setReg 1 0x10).setReg vf 1) (fun t => t.reg 1 == 0x11 && t.reg vf == 0) = true ∧
    runs 0x8F14 (fun s => (s.setReg vf 0xF0).setReg 1 0x20) (fun t => t.reg vf == 1) = true := by decide

/-- S2. -/
theorem test_sub : runs 0x8125 (fun s => (s.setReg 1 100).setReg 2 55) (fun t => t.reg 1 == 45 && t.reg vf == 1) = true ∧
    runs 0x8125 (fun s => (s.setReg 1 55).setReg 2 100) (fun t => t.reg 1 == 211 && t.reg vf == 0) = true := by decide

/-- V-A13, V-A16. -/
theorem test_sub_equal_and_vf :
    runs 0x8125 (fun s => (s.setReg 1 0x33).setReg 2 0x33) (fun t => t.reg 1 == 0 && t.reg vf == 1) = true ∧
    runs 0x8F15 (fun s => (s.setReg vf 5).setReg 1 3) (fun t => t.reg vf == 1) = true := by decide

/-- S4. -/
theorem test_shr : runs 0x8106 (fun s => s.setReg 1 0xB5) (fun t => t.reg 1 == 0x5A && t.reg vf == 1) = true ∧
    runs 0x8106 (fun s => s.setReg 1 0x64) (fun t => t.reg 1 == 0x32 && t.reg vf == 0) = true := by decide

/-- V-A17, V-A19, the last under both settings. -/
theorem test_shr_vy_and_vf :
    runs 0x8126 (fun s => (s.setReg 1 0x01).setReg 2 0x77) (fun t => t.reg 1 == 0 && t.reg vf == 1 && t.reg 2 == 0x77) = true ∧
    runs 0x8F06 (fun s => s.setReg vf 5) (fun t => t.reg vf == 2) = true ∧
    runs 0x8F06 (fun s => { s.setReg vf 5 with config := { s.config with vfDestOrder := .flagLast } }) (fun t => t.reg vf == 1) = true := by decide

/-- S3. -/
theorem test_subn : runs 0x8127 (fun s => (s.setReg 1 100).setReg 2 55) (fun t => t.reg 1 == 211 && t.reg vf == 0) = true ∧
    runs 0x8127 (fun s => (s.setReg 1 20).setReg 2 55) (fun t => t.reg 1 == 35 && t.reg vf == 1) = true := by decide

/-- V-A21, V-A22. -/
theorem test_subn_equal_and_vf : runs 0x8127 id (fun t => t.reg 1 == 0 && t.reg vf == 1) = true ∧
    runs 0x8F17 (fun s => (s.setReg vf 9).setReg 1 3) (fun t => t.reg vf == 0) = true := by decide

/-- S5. -/
theorem test_shl : runs 0x810E (fun s => s.setReg 1 0xB5) (fun t => t.reg 1 == 0x6A && t.reg vf == 1) = true ∧
    runs 0x810E (fun s => s.setReg 1 0x64) (fun t => t.reg 1 == 0xC8 && t.reg vf == 0) = true := by decide

/-- V-A24, under both settings. -/
theorem test_shl_vf : runs 0x8F0E (fun s => s.setReg vf 0x81) (fun t => t.reg vf == 2) = true ∧
    runs 0x8F0E (fun s => { s.setReg vf 0x81 with config := { s.config with vfDestOrder := .flagLast } }) (fun t => t.reg vf == 1) = true := by
  decide

/-- V-A25, V-A27, for every random source. -/
theorem test_rnd (f : Nat → Byte) : (0x00 : Byte) &&& f 0 = 0 ∧ ((0xF0 : Byte) &&& f 0) &&& 0x0F = 0 ∧
    execRnd 1 0xF0 ready = .next ((ready.setReg 1 (0xF0 &&& Config.randByte 0)).setDraws 1) := by
  refine ⟨by simp, ?_, rfl⟩
  rw [BitVec.and_comm (0xF0 : Byte), BitVec.and_assoc]; simp

/-! ### Index register and memory -/

/-- V-I1. -/
theorem test_ld_i : runs 0xAFFF id (fun t => t.I == 0x0FFF) = true := by decide

/-- V-I2, V-I3. -/
theorem test_add_i :
    runs 0xF01E (fun s => ((s.setI 0xFFFF).setReg 0 1).setReg vf 9) (fun t => t.I == 0 && t.reg vf == 9) = true ∧
    runs 0xF01E (fun s => (s.setI 0x0FFF).setReg 0 1) (fun t => t.I == 0x1000 && t.fault == none) = true := by decide

/-- V-I5. -/
theorem test_ld_f : runs 0xF029 (fun s => s.setReg 0 0x0F) (fun t => t.I == 0x04B) = true ∧
    runs 0xF029 (fun s => s.setReg 0 0xFF) (fun t => t.I == 0x4FB) = true := by decide

/-- S6, over the font. -/
theorem test_ld_b : runs 0xF133 (fun s => (s.setReg 1 241).setI 4)
    (fun t => (List.range 3).map (fun k => t.byte (4 + k)) == [2, 4, 1] && t.I == 4 && t.byte 7 == 0x20) = true := by
  decide

/-- V-I8. -/
theorem test_ld_b_fault : runs 0xF033 (fun s => (s.setI 0xFFE).setReg 0 123)
    (fun t => latched t .addressOutOfRange 0xF033 (some 0x1000) && t.byte 0xFFE == 0 && t.byte 0xFFF == 0) = true := by
  decide

/-- The example of R174. -/
theorem test_ld_mem : runs 0xF155 (fun s => ((s.setI 0x300).setReg 0 0xAA).setReg 1 0xBB)
    (fun t => t.byte 0x300 == 0xAA && t.byte 0x301 == 0xBB && t.byte 0x302 == 0 && t.I == 0x300) = true := by
  decide

/-- V-I11. -/
theorem test_ld_mem_fault : runs 0xF155 (fun s => ((s.setI 0xFFF).setReg 0 0xAB).setReg 1 0xCD)
    (fun t => latched t .addressOutOfRange 0xF155 (some 0x1000) && t.byte 0xFFF == 0) = true := by decide

/-- V-I13. -/
theorem test_ld_vx_mem : runs 0xF265 (fun s => ((s.setI 0x300).setReg 3 0x99).store 0x300 [1, 2, 3, 4])
    (fun t => t.reg 0 == 1 && t.reg 1 == 2 && t.reg 2 == 3 && t.reg 3 == 0x99 && t.I == 0x300) = true := by decide

/-- V-I14. -/
theorem test_ld_vx_mem_fault : runs 0xF165 (fun s => ((s.setI 0xFFF).setReg 0 5).setReg 1 6)
    (fun t => latched t .addressOutOfRange 0xF165 (some 0x1000) && t.reg 0 == 5 && t.reg 1 == 6) = true := by decide

/-- P8: the word that cycle 4 stores is the one cycle 5 runs. -/
theorem test_self_modifying : runs 0xF155 (fun s => (((s.setPc 0x206).setI 0x208).setReg 0 0x62).setReg 1 0x07)
    (fun t => after (step t) (fun u => u.reg 2 == 0x07 && u.pc == 0x20A)) = true := by decide

/-! ### Display -/

/-- V-D15, from a lit display. -/
theorem test_cls : runs 0x00E0 (fun s => (s.setFb (s.fb.flip 5 7)).setReg vf 3)
    (fun t => t.fb.pixel 5 7 == false && t.reg vf == 3) = true := by decide

/-- V-D3, V-D2 under the other bit order. -/
theorem test_drw_wraps :
    runs 0xD011 (fun s => (((s.setI 0x300).setReg 0 63).setReg 1 5).store 0x300 [0x01])
      (fun t => t.fb.pixel 6 5 && !t.fb.pixel 63 5 && t.reg vf == 0) = true ∧
    runs 0xD011 (fun s => { (((s.setI 0x300).setReg 0 63).setReg 1 5).store 0x300 [0x80] with
      config := { s.config with spriteBitOrder := .lsbLeft } }) (fun t => t.fb.pixel 6 5 && !t.fb.pixel 63 5 && t.reg vf == 0) = true := by decide

/-- V-D7. -/
theorem test_drw_collision : runs 0xD011 (fun s => ((s.setI 0x300).setFb (s.fb.flip 0 0)).store 0x300 [0xC0])
    (fun t => !t.fb.pixel 0 0 && t.fb.pixel 1 0 && t.reg vf == 1) = true := by decide

/-- V-D9, V-D13. -/
theorem test_drw_edges : runs 0xD010 (fun s => (s.setI 0xFFFF).setReg vf 1) (fun t => t.fault == none && t.reg vf == 0) = true ∧
    runs 0xD002 (fun s => (s.setI 0xFFF).setReg vf 7)
      (fun t => latched t .addressOutOfRange 0xD002 (some 0x1000) && t.reg vf == 7) = true := by decide

/-- V-D10: the old `VF` is the column. -/
theorem test_drw_vf_operand :
    runs 0xDF11 (fun s => (((s.setI 0x300).setReg vf 5).setReg 1 2).store 0x300 [0x80])
      (fun t => t.fb.pixel 5 2 && t.reg vf == 0) = true := by decide

/-- By the operation of R191 (log 26): a sprite over pixels that are all lit collides on the first draw and not on the
second. -/
theorem test_second_draw_over_lit_pixels :
    runs 0xD011 (fun s => ((s.setI 0x300).setFb (s.fb.flip 0 0)).store 0x300 [0x80])
      (fun t => t.reg vf == 1 && after (exec (.drw 0 1 1) t) (fun u => u.fb.pixel 0 0 && u.reg vf == 0)) = true := by decide

/-! ### Keys and timers -/

/-- V-K1. -/
theorem test_skp : runs 0xE09E (fun s => (s.setReg 0 3).setKey 3 true) (fun t => t.pc == 0x204) = true ∧
    runs 0xE09E (fun s => s.setReg 0 3) (fun t => t.pc == 0x202) = true := by decide

/-- V-K3. -/
theorem test_skp_fault :
    runs 0xE09E (fun s => s.setReg 0 0x10) (fun t => latched t .keyIndexOutOfRange 0xE09E (some 0x10)) = true := by decide

/-- V-K2. -/
theorem test_sknp : runs 0xE0A1 (fun s => (s.setReg 0 3).setKey 3 true) (fun t => t.pc == 0x202) = true ∧
    runs 0xE0A1 (fun s => s.setReg 0 3) (fun t => t.pc == 0x204) = true := by decide

/-- V-K4. -/
theorem test_sknp_fault :
    runs 0xE0A1 (fun s => s.setReg 0 0xFF) (fun t => latched t .keyIndexOutOfRange 0xE0A1 (some 0xFF)) = true := by decide

/-- V-K5. -/
theorem test_key_wait : runs 0xF30A id (fun t => t.pc == 0x200 && t.reg 3 == 0) = true := by decide

/-- V-K6. -/
theorem test_key_taken : runs 0xF30A (fun s => (s.setKey 7 true).setKey 2 true) (fun t => t.reg 3 == 2 && t.pc == 0x202) = true ∧
    runs 0xF30A (fun s => s.setKey 0xF true) (fun t => t.reg 3 == 0x0F) = true := by decide

/-- V-K7. -/
theorem test_ld_dt : runs 0xF407 (fun s => (s.setDT 0x2A).setST 0x11) (fun t => t.reg 4 == 0x2A && t.DT == 0x2A) = true := by
  decide

/-- V-K8. -/
theorem test_set_dt : runs 0xF315 (fun s => s.setReg 3 2) (fun t => t.DT == 2 && t.ST == 0) = true := by decide

/-- V-K9. -/
theorem test_set_st : runs 0xF318 (fun s => s.setReg 3 0x10) (fun t => t.ST == 0x10 && t.DT == 0) = true := by decide

/-! ### The interface -/

/-- V-T1, V-T2. -/
theorem test_tick : (tick (State.reset.setDT 1)).DT = 0 ∧ (tick (State.reset.setDT 1)).ST = 0 ∧
    (tick ((State.reset.setDT 0xFF).setST 2)).DT = 0xFE ∧ (tick ((State.reset.setDT 0xFF).setST 2)).ST = 1 := by decide

/-- S12, V-T5. -/
theorem test_release_rejected : (∀ k : Fin 16, release k.val State.reset = .rejected .releaseNotPressed) ∧
    release 16 State.reset = .rejected .keyOutOfRange ∧ press 16 State.reset = .rejected .keyOutOfRange := by decide

/-- V-T6. -/
theorem test_pixel_at : pixelAt 64 0 State.reset = .rejected .pixelOutOfRange ∧
    pixelAt 0 32 State.reset = .rejected .pixelOutOfRange ∧ pixelAt 63 31 State.reset = .accepted false := by decide

/-- V-R2: the launch state of `12 00` is at rest, reached by the operation as well. -/
theorem test_load_rom : after (step (State.reset.setPending [.loadROM [0x12, 0x00]]))
    (fun t => t.byte 0x200 == 0x12 && t.byte 0x201 == 0 && decide t.AtRest && t.pending == []) = true := by decide

/-- R242, R271: a ROM that is too large writes no byte and does not count as the load. -/
theorem test_load_rom_too_large (bytes : List Byte) (h : 0xE00 < bytes.length) :
    step (State.reset.setPending [.loadROM bytes]) = .next State.reset := by
  have : loadROM bytes State.reset = .rejected .romTooLarge := if_pos h
  simp only [step, stepOnce, State.setPending, operate, bootLoad, State.reset] at this ⊢
  rw [this]; rfl

/-- D17, D19: no load after the first, nothing but `Reset` after a fault. -/
theorem test_refusals :
    after (step (State.reset.setPending [.loadROM [], .loadROM []])) (fun t => refuses (step t) .romLoadOutOfOrder) = true ∧
    after (step State.reset) (fun t => refuses (step (t.setPending [.tick])) .operationAfterFault &&
      after (step (t.setPending [.reset])) (fun u => u.fault == none && u.pc == 0x200)) = true := by decide

/-! ### Witnesses: the hypotheses of the obligations can be met, at the edges of each clause -/

theorem witness_EveryStepKeepsTheInvariant :
    ∃ s t, s.Inv ∧ step s = .next t ∧ t.pc = 0x10FE := ⟨placed 0xBFFF (fun s => s.setReg 0 0xFF), _, by decide, rfl, rfl⟩

theorem witness_ResetForgetsTheStateBefore :
    ∃ (s : State) (rest : List Operation), s.pending = .reset :: rest ∧ s.fault ≠ none :=
  ⟨(raise .illegalOpcode none 0 none State.reset).setPending [.reset, .tick], [.tick], rfl, by decide⟩

theorem witness_DecodeOfEncodeIsTheInstruction : WellFormed (.drw 0xF 0xF 0xF) = true ∧ WellFormed (.sys 0x000) = true := by
  decide

theorem witness_EncodeOfDecodeIsTheWord : decodeWord 0x0000 = .ok (.sys 0) ∧ decodeWord 0xFF65 = .ok (.ldVxMem 0xF) := by
  decide

theorem witness_RowsAreDisjointExceptSys :
    (∃ r q, opcodeTable[0]? = some r ∧ opcodeTable[2]? = some q ∧ r.selects 0x00E0 = true ∧ q.selects 0x00E0 = true) ∧
    (∃ r q, opcodeTable[1]? = some r ∧ opcodeTable[2]? = some q ∧ r.selects 0x00EE = true ∧ q.selects 0x00EE = true) :=
  ⟨⟨⟨0xFFFF, 0x00E0⟩, ⟨0xF000, 0x0000⟩, by decide⟩, ⟨⟨0xFFFF, 0x00EE⟩, ⟨0xF000, 0x0000⟩, by decide⟩⟩

/-- Nothing lined up, the last address a fetch can succeed at; and a cycle lined up before a tick. -/
theorem witness_StepRunsTheDecodedInstruction :
    (let s := placed 0x6123 (fun s => s.setPc 0xFFE)
     s.pending = [] ∧ s.fault = none ∧ s.pc = 0xFFE ∧ decodeWord (s.wordAt s.pc.toNat) = .ok (.ldVxKk 1 0x23)) ∧
    (let s := (placed 0x6123 id).setPending [.cycle, .tick]
     s.pending = .cycle :: [.tick] ∧ s.fault = none ∧ decodeWord (s.wordAt s.pc.toNat) = .ok (.ldVxKk 1 0x23)) := by decide

theorem witness_IllegalWordLatchesIllegalOpcode :
    let s := placed 0x5121 (fun s => s.setPc 0xFFE)
    s.fault = none ∧ s.pc.toNat ≤ 0xFFE ∧ decodeWord (s.wordAt s.pc.toNat) = .error .illegal5 := by decide

theorem witness_FetchOutsideMemoryLatchesAddressOutOfRange : State.reset.fault = none ∧
    0xFFE < (State.reset.setPc 0xFFF).pc.toNat ∧ 0xFFE < (State.reset.setPc 0x1000).pc.toNat := by decide

theorem witness_CallPushesThePcAndJumps : (ready.setStack ready.stack 15).depth.val < 16 ∧
    (ready.setStack ready.stack 16).depth.val = 16 := by decide

theorem witness_ReturnPopsThePc : (ready.setStack ready.stack 16).depth.val = (15 : Fin 16).val + 1 ∧
    (ready.setStack ready.stack 1).depth.val = (0 : Fin 16).val + 1 ∧ ready.depth.val = 0 := by decide

theorem witness_ReturnUndoesCall : (ready.setStack ready.stack 15).depth.val < 16 := by decide

/-- An instruction that moves no `pc`, and one that moves it but faults. -/
theorem witness_OtherInstructionsLeaveTheAdvancedPc : (∃ t, exec (.addVxKk 1 2) ready = .next t ∧ movesPc (.addVxKk 1 2) = false) ∧
    (∃ t, exec .ret ready = .next t ∧ t.fault ≠ ready.fault) := ⟨⟨_, rfl, rfl⟩, ⟨_, rfl, by decide⟩⟩

theorem witness_LoadsAndLogicWriteTheirDestination : (ready.reg 1).toNat + 0xFF = 0xFF ∧
    (Instr.xorVxVy 1 0xF, (ready.reg 1).toNat ^^^ (ready.reg 0xF).toNat) ∈
      [(Instr.ldVxKk 1 0, 0), (.addVxKk 1 0, ((ready.reg 1).toNat + 0) % 256), (.ldVxVy 1 0xF, (ready.reg 0xF).toNat),
       (.orVxVy 1 0xF, (ready.reg 1).toNat ||| (ready.reg 0xF).toNat),
       (.andVxVy 1 0xF, (ready.reg 1).toNat &&& (ready.reg 0xF).toNat),
       (.xorVxVy 1 0xF, (ready.reg 1).toNat ^^^ (ready.reg 0xF).toNat)] := by decide

/-- The sum 255 does not carry and 256 does; `x` may be `VF` or not. -/
theorem witness_AddWritesSumThenCarry : ¬255 < (0xFE : Byte).toNat + (1 : Byte).toNat ∧
    255 < (0xFF : Byte).toNat + (1 : Byte).toNat ∧ (1 : Reg) ≠ vf ∧ (0xF : Reg) = vf := by decide

/-- Equal operands do not borrow. -/
theorem witness_SubtractsWriteDifferenceThenNoBorrow :
    (Instr.subnVxVy 0xF 1, (ready.reg 1).toNat, (ready.reg 0xF).toNat) ∈
      [(Instr.subVxVy 0xF 1, (ready.reg 0xF).toNat, (ready.reg 1).toNat),
       (.subnVxVy 0xF 1, (ready.reg 1).toNat, (ready.reg 0xF).toNat)] ∧ (ready.reg 1).toNat ≤ (ready.reg 0xF).toNat ∧
    ¬((1 : Byte).toNat ≤ (0 : Byte).toNat) := by decide

theorem witness_ShiftsMoveOnePlace :
    (Instr.shlVx 0xF 1, 2 * (ready.reg 0xF).toNat % 256, (ready.reg 0xF).toNat / 128) ∈
      [(Instr.shrVx 0xF 1, (ready.reg 0xF).toNat / 2, (ready.reg 0xF).toNat % 2),
       (.shlVx 0xF 1, 2 * (ready.reg 0xF).toNat % 256, (ready.reg 0xF).toNat / 128)] ∧ (0xF : Reg) = vf ∧
    ready.config.vfDestOrder = .tableOrder := by decide

/-- The other register is `VF`, or is not, or the shifted one is. -/
theorem witness_ShiftsDoNotReadVy : vf ≠ (0 : Reg) ∧ (0xE : Reg) ≠ 0 ∧ (0xE : Reg) ≠ vf := by decide

theorem witness_VfDestOrderMattersOnlyToShiftsOfVf :
    ∃ t, shiftsVf (.shrVx 0xE 0xF) = false ∧ exec (.shrVx 0xE 0xF) ready = .next t := ⟨_, by decide, rfl⟩

/-- `kk = 0`, `kk = 0xFF`, and a mask between them. -/
theorem witness_RandomByteIsMasked : ∃ t u, exec (.rnd 0xF 0x00) ready = .next t ∧ exec (.rnd 0xF 0xFF) ready = .next u :=
  ⟨_, _, rfl, rfl⟩

theorem witness_VfIsAFlagOfSixInstructions :
    (∃ t, exec (.drw 0xF 0xF 0xF) ready = .next t ∧ writesFlag (.drw 0xF 0xF 0xF) = true ∧
      shiftsVf (.drw 0xF 0xF 0xF) = false ∧ t.fault = none) ∧
    (∃ t, exec (.ldVxMem 0xE) ready = .next t ∧ writesFlag (.ldVxMem 0xE) = false ∧ writesReg (.ldVxMem 0xE) vf = false) :=
  ⟨⟨_, rfl, rfl, rfl, rfl⟩, ⟨_, rfl, rfl, by decide⟩⟩

theorem witness_IndexInstructionsWriteI :
    (Instr.ldFVx 0xF, 5 * (ready.reg 0xF).toNat) ∈
      [(Instr.ldI 0xFFF, 0xFFF), (.addIVx 0xF, (ready.I.toNat + (ready.reg 0xF).toNat) % 65536),
       (.ldFVx 0xF, 5 * (ready.reg 0xF).toNat)] := by decide

/-- The last place for three digits. -/
theorem witness_BcdStoresThreeDigits : (ready.setI 0xFFD).MemWf ∧ (ready.setI 0xFFD).I.toNat ≤ 0xFFD := by decide

/-- The last place for sixteen registers, and for one. -/
theorem witness_BlockStoreCopiesRegisters : ready.MemWf ∧ (ready.setI 0xFF0).I.toNat + (0xF : Reg).val ≤ 0xFFF ∧
    (ready.setI 0xFFF).I.toNat + (0 : Reg).val ≤ 0xFFF := by decide

theorem witness_BlockLoadCopiesMemory : (ready.setI 0xFF0).I.toNat + (0xF : Reg).val ≤ 0xFFF ∧
    (ready.setI 0xFFF).I.toNat + (0 : Reg).val ≤ 0xFFF ∧ (3 : Reg) ≤ 3 ∧ (3 : Reg) < 4 := by decide

theorem witness_BlockStoreThenLoadRestores : ready.MemWf ∧ (ready.setI 0xFF0).I.toNat + (0xF : Reg).val ≤ 0xFFF := by
  decide

/-- The first `I` that faults for each of the four instructions, and the largest `I`. -/
theorem witness_DataOutsideMemoryLatchesAddressOutOfRange :
    0xFFF < (ready.setI 0xFFE).I.toNat + (touchedBytes (.ldBVx 0) - 1) ∧
    0xFFF < (ready.setI 0xFF1).I.toNat + (touchedBytes (.ldMemVx 0xF) - 1) ∧
    0xFFF < (ready.setI 0xFFF).I.toNat + (touchedBytes (.ldVxMem 1) - 1) ∧
    0xFFF < (ready.setI 0xFFF).I.toNat + (touchedBytes (.drw 0 1 2) - 1) ∧
    0xFFF < (ready.setI 0xFFFF).I.toNat + (touchedBytes (.drw 0 1 1) - 1) ∧ 0 < touchedBytes (.drw 0 1 1) := by decide

/-- The four clauses at their edges. -/
theorem witness_MemReadChecksItsAddress : (0xFFE : Nat) ≤ 0xFFE ∧ memRead16 Config.decidedFont [] 0xFFE = .ok 0x0000 ∧
    memRead16 Config.decidedFont [] 0xFFF = .error 0x1000 ∧ memRead16 Config.decidedFont [] 0x1000 = .error 0x1000 ∧
    memRead Config.decidedFont [] 0xFFF = .ok 0 ∧ memRead Config.decidedFont [] 0x1000 = .error 0x1000 :=
  ⟨by decide, rfl, rfl, rfl, rfl, rfl⟩

/-- Reset's memory, and one with a byte of the font and the last byte changed. -/
theorem witness_MemWriteChangesOneByte : Memory.wf Config.decidedFont [] = true ∧
    Memory.wf Config.decidedFont [(0x000, 0x00), (0xFFF, 0x01)] = true ∧ (0xFFF : Nat) ≤ 0xFFF ∧ 0xFFF < (0x1000 : Nat) := by
  decide

theorem witness_StoreIsSeenByTheNextFetch :
    ∃ t, let s := (placed 0xF155 (fun s => (s.setPc 0xFFE).setI 0xFFE))
      s.MemWf ∧ 1 ≤ (1 : Reg).val ∧ s.I = s.pc ∧ s.I.toNat + (1 : Reg).val ≤ 0xFFF ∧ exec (.ldMemVx 1) s = .next t :=
  ⟨_, by decide, by decide, by decide, by decide, rfl⟩

/-- The ready state with one lit pixel under the only 1 bit of the one-row sprite 0x80 at address 0. -/
def litUnderSprite : State := (ready.setMem [(0, 0x80)]).setFb (ready.fb.flip 0 0)

/-- Every pixel under a 1 bit of that sprite is lit. -/
theorem litUnderSprite_covers (cx : Fin 64) (cy : Fin 32) (h : spriteCovers litUnderSprite 0 1 1 cx cy) :
    litUnderSprite.fb.pixel cx cy = true := by
  obtain ⟨r, hr, c, hc, hb, hx, hy⟩ := h
  obtain rfl : r = 0 := Nat.lt_one_iff.mp hr
  have h0 : c = 0 := by
    revert hb
    have : ∀ c < 8, spriteBit .msbLeft 0x80 c = true → c = 0 := by decide
    exact this c hc
  subst h0
  obtain rfl : cx = 0 := Fin.ext hx.symm
  obtain rfl : cy = 0 := Fin.ext hy.symm
  decide

/-- No rows anywhere, the last row at 0xFFF; a pixel the sprite covers and one it does not; no covered pixel lit, and one
lit. -/
theorem witness_DrawXorsTheSprite : (0 : Fin 16).val = 0 ∧ (ready.setI 0xFFF).I.toNat + ((1 : Fin 16).val - 1) ≤ 0xFFF ∧
    (ready.setI 0xFF1).I.toNat + ((0xF : Fin 16).val - 1) ≤ 0xFFF ∧ spriteCovers ready 0 1 1 0 0 ∧
    ¬spriteCovers ready 0 1 1 4 0 ∧ (∀ cx cy, spriteCovers ready 0 1 1 cx cy → ready.fb.pixel cx cy = false) ∧
    (spriteCovers litUnderSprite 0 1 1 0 0 ∧ litUnderSprite.fb.pixel 0 0 = true) :=
  ⟨by decide, by decide, by decide, by decide, by decide,
    fun cx cy _ => by simp [ready, State.setPc, State.reset, Framebuffer.pixel], by decide⟩

/-- Glyph 0's first row on a clear display, and a display that is lit wherever the sprite has a 1 bit. -/
theorem witness_DrawingTwiceRestoresTheDisplay : (0 : Reg) ≠ vf ∧ (1 : Reg) ≠ vf ∧
    (ready.I.toNat + ((1 : Fin 16).val - 1) ≤ 0xFFF) ∧ (spriteCovers ready 0 1 1 0 0 ∧ ready.fb.pixel 0 0 = false) ∧
    (∀ cx cy, spriteCovers litUnderSprite 0 1 1 cx cy → litUnderSprite.fb.pixel cx cy = true) ∧
    spriteCovers litUnderSprite 0 1 1 0 0 :=
  ⟨by decide, by decide, by decide, by decide, litUnderSprite_covers, by decide⟩

theorem witness_SecondDrawHitsWheneverTheSpriteHasABit :
    ∃ t u, exec (.drw 0 1 1) ready = .next t ∧ exec (.drw 0 1 1) t = .next u ∧ u.fault = none ∧ spriteCovers ready 0 1 1 0 0 ∧
      (0 : Reg) ≠ vf ∧ (1 : Reg) ≠ vf := ⟨_, _, rfl, rfl, rfl, by decide, by decide, by decide⟩

theorem witness_KeySkipsTestTheLatch : (ready.reg 0).toNat = (0 : Fin 16).val ∧
    ((ready.setReg 0 15).reg 0).toNat = (15 : Fin 16).val ∧ 15 < ((ready.setReg 0 16).reg 0).toNat := by decide

theorem witness_KeyWaitTakesTheLeastPressedKey : (∀ k : Fin 16, ready.key[k] = false) ∧
    (let s := (ready.setKey 15 true).setKey 2 true
     s.key[(2 : Fin 16)] = true ∧ ∀ j : Fin 16, j < 2 → s.key[j] = false) := by decide

theorem witness_WaitingForAKeyIsAStutter :
    let s := placed 0xFF0A (fun s => s.setPc 0xFFE)
    s.pending = [] ∧ s.fault = none ∧ s.pc.toNat ≤ 0xFFE ∧ s.wordAt s.pc.toNat = encode (.ldVxK 0xF) ∧
      ∀ k : Fin 16, s.key[k] = false := by decide

theorem witness_NoInstructionReadsTheSoundTimer :
    ∃ t u, exec (.ldSTVx 0xF) ready = .next t ∧ exec (.ldVxDT 0xF) ready = .next u := ⟨_, _, rfl, rfl⟩

theorem witness_AFaultChangesOnlyTheLatch : ready.fault = none ∧ (∃ t r, exec .ret ready = .next t ∧ t.fault = some r) ∧
    (∃ t r, exec (.skp 0) (ready.setReg 0 0xFF) = .next t ∧ t.fault = some r) ∧
    (∃ t r, exec (.ldVxMem 0) (ready.setI 0xFFFF) = .next t ∧ t.fault = some r) :=
  ⟨rfl, ⟨_, _, rfl, rfl⟩, ⟨_, _, rfl, rfl⟩, ⟨_, _, rfl, rfl⟩⟩

/-- A fault in decode, one in execute, one in the fetch. -/
theorem witness_FaultRecordNamesTheFetchedWord :
    after (cycle (placed 0x5121 (fun s => s.setPc 0xFFE))) (fun t => t.fault.isSome) = true ∧
    after (cycle (placed 0x00EE id)) (fun t => t.fault.isSome) = true ∧
    after (cycle (State.reset.setPc 0xFFF)) (fun t => t.fault.isSome) = true := by decide

theorem witness_AFaultedMachineTakesNoStep : ∃ (s : State) (r : FaultRecord), s.fault = some r ∧ s.pending = [] ∧
    (s.setPending [.tick, .reset]).pending = .tick :: [.reset] ∧ Operation.tick ≠ .reset :=
  ⟨raise .illegalOpcode (some 0) 0x200 none ready, _, rfl, rfl, rfl, by decide⟩

theorem witness_StepPerformsTheOldestOperation : State.reset.fault = none ∧ State.reset.pending = [] ∧
    State.reset.session = .constructed ∧ (∀ op : Operation, (State.reset.setPending [op]).pending = op :: []) :=
  ⟨rfl, rfl, rfl, fun _ => rfl⟩

theorem witness_PressAndReleaseMoveOneKey : ready.key[(15 : Fin 16)] = false ∧
    (ready.setKey 15 true).key[(15 : Fin 16)] = true ∧ 15 < 16 := by decide

theorem witness_PixelAtAnswersThePixel : (63 : Fin 64).val = 63 ∧ (31 : Fin 32).val = 31 ∧ (63 < 64 ∨ 31 < 0) ∧
    (63 < 0 ∨ 31 < 32) := by decide

theorem witness_LoadRomStoresVerbatim : ready.MemWf ∧ (List.replicate 0xE00 (0x12 : Byte)).length ≤ 0xE00 ∧
    0xE00 < (List.replicate 0xE01 (0x12 : Byte)).length := by
  refine ⟨by decide, ?_, ?_⟩ <;> (rw [List.length_replicate]; try omega)

/-- A load after a `Press`, one that fits and one that does not, and a load out of the boot order. -/
theorem witness_RomIsLoadedOnceBeforeTheFirstCycle :
    (∀ bytes : List Byte, let s := (State.reset.setKey 5 true).setPending [.loadROM bytes]
      s.fault = none ∧ s.session = .constructed ∧ s.pending = .loadROM bytes :: []) ∧
    (List.replicate 0xE00 (0x12 : Byte)).length ≤ 0xE00 ∧ 0xE00 < (List.replicate 0xE01 (0x12 : Byte)).length ∧
    ((State.reset.setSession .running).setPending [.loadROM []]).pending = .loadROM [] :: [] ∧
    (State.reset.setSession .running).session ≠ .constructed ∧ (State.reset.setSession .loaded).session ≠ .constructed := by
  refine ⟨fun _ => ⟨rfl, rfl, rfl⟩, ?_, ?_, rfl, by decide, by decide⟩ <;> (rw [List.length_replicate]; try omega)

theorem witness_StateIsWrittenOnlyAsTheTableSays : (∃ t, exec (.seVxVy 1 1) ready = .next t) ∧
    storedBytes (.seVxVy 1 1) = 0 ∧ writesI (.seVxVy 1 1) = false ∧ faultOf (.seVxVy 1 1) = none := ⟨⟨_, rfl⟩, rfl, rfl, rfl⟩

theorem witness_RegistersKeepOutsideDestinations :
    ∃ t, exec (.ldVxMem 0xE) ready = .next t ∧ writesReg (.ldVxMem 0xE) 0xF = false := ⟨_, rfl, by decide⟩

theorem witness_MemoryKeepsOutsideStoredBytes :
    ∃ t, (ready.setI 0xFF0).MemWf ∧ exec (.ldMemVx 0xF) (ready.setI 0xFF0) = .next t ∧
      (0xFEF < (ready.setI 0xFF0).I.toNat) ∧ (ready.setI 0x100).I.toNat + storedBytes (.ldBVx 0) ≤ 0x103 :=
  ⟨_, by decide, rfl, by decide, by decide⟩

theorem witness_AtRestACycleChangesNothing : (placed 0x1FFE (fun s => s.setPc 0xFFE)).AtRest ∧ (placed 0x1200 id).AtRest := by
  decide

end Sys2Proof.Tests
end

section
/-! PROOFS of the interface's scheduling (spec 00_scope.md R9, 20_memory.md R72; logs 6, 7, 9). -/

namespace Sys2Proof.Machine

/-! ### Which operation a step performs -/

/-- With nothing lined up a step is a `Cycle` (log 6). -/
theorem step_of_pending_nil {s : State} (h : s.pending = []) : step s = cycle s := by
  simp only [step, stepOnce, h]

/-- A step performs the oldest operation, on the state with it taken off the list (log 6). -/
theorem step_of_pending_cons {s : State} {op : Operation} {rest : List Operation} (h : s.pending = op :: rest) :
    step s = operate op (s.setPending rest) := by
  simp only [step, stepOnce, h]

/-! ### What each operation does as a step while no fault is latched -/

theorem operate_reset (s : State) : operate .reset s = .next (resetMachine s) := rfl

theorem operate_cycle (s : State) : operate .cycle s = cycle s := rfl

theorem operate_tick_of_none {s : State} (hf : s.fault = none) : operate .tick s = .next (tick s) :=
  unlessFaulted_of_none hf _

theorem operate_press_of_none {s : State} (hf : s.fault = none) (k : Nat) :
    operate (.press k) s = .next ((press k s).stateOr s) :=
  unlessFaulted_of_none hf _

theorem operate_release_of_none {s : State} (hf : s.fault = none) (k : Nat) :
    operate (.release k) s = .next ((release k s).stateOr s) :=
  unlessFaulted_of_none hf _

theorem operate_pixelAt_of_none {s : State} (hf : s.fault = none) (cx cy : Nat) :
    operate (.pixelAt cx cy) s = .next s :=
  unlessFaulted_of_none hf _

theorem operate_loadROM_of_constructed {s : State} (hs : s.session = .constructed) (hf : s.fault = none)
    (bytes : List Byte) : operate (.loadROM bytes) s = .next ((loadROM bytes s).stateOr s) :=
  bootLoad_of_constructed hs hf bytes

/-- Settles O51: a step with an operation lined up is that operation by `step_of_pending_cons`, and taking it off the list
changes neither the latch nor the session, which decide whether the operation is performed. -/
theorem stepPerformsTheOldestOperation : Obligations.StepPerformsTheOldestOperation := by
  intro s rest hf
  have hf' : (s.setPending rest).fault = none := hf
  refine ⟨step_of_pending_nil, ?cycle, ?tick, ?press, ?release, ?pixelAt, ?loadROM, ?reset⟩
  case cycle => exact fun h => (step_of_pending_cons h).trans (operate_cycle _)
  case tick => exact fun h => (step_of_pending_cons h).trans (operate_tick_of_none hf')
  case press => exact fun k h => (step_of_pending_cons h).trans (operate_press_of_none hf' k)
  case release => exact fun k h => (step_of_pending_cons h).trans (operate_release_of_none hf' k)
  case pixelAt => exact fun cx cy h => (step_of_pending_cons h).trans (operate_pixelAt_of_none hf' cx cy)
  case loadROM =>
    intro bytes h hs
    have hs' : (s.setPending rest).session = .constructed := hs
    exact (step_of_pending_cons h).trans (operate_loadROM_of_constructed hs' hf' bytes)
  case reset => exact fun h => (step_of_pending_cons h).trans (operate_reset _)

end Sys2Proof.Machine
end

section
/-! PROOFS about reset and the invariant of every step (spec 10_state.md R27, R29, R40, R41), and that no instruction reads
`ST` (R31). -/

namespace Sys2Proof.Machine

/-! ### The invariant and the updates of the state

An update that touches none of `mem`, `config`, `pc`, `stack` and `depth` keeps `State.Inv` by definition. -/

theorem State.Inv.setPc {s : State} (hs : s.Inv) {v : Word} (hv : v.toNat ≤ 0x10FE) : (s.setPc v).Inv := by
  obtain ⟨hmem, -, hstack⟩ := hs
  exact ⟨hmem, hv, hstack⟩

/-- A run stored inside memory keeps the invariant. -/
theorem State.Inv.store {s : State} (hs : s.Inv) {base : Nat} {vs : List Byte}
    (hr : base + vs.length ≤ Config.memSize) : (s.store base vs).Inv := by
  obtain ⟨hmem, hpc, hstack⟩ := hs
  exact ⟨State.store_memWf hmem hr, hpc, hstack⟩

/-- Pushing a return address in its range (R27) keeps every live one in it. -/
theorem State.Inv.push {s : State} (hs : s.Inv) {v : Word} (hv : v.toNat ≤ 0x1000) (h : s.depth.val < 16) :
    (s.setStack (s.stack.set s.depth.val v) ⟨s.depth.val + 1, by omega⟩).Inv := by
  obtain ⟨hmem, hpc, hstack⟩ := hs
  refine ⟨hmem, hpc, fun k (hk : k.val < s.depth.val + 1) => ?_⟩
  simp only [State.setStack_stack, Fin.getElem_fin, Vector.getElem_set]
  split
  · exact hv
  · exact hstack k (by omega)

/-- Popping makes no slot live. -/
theorem State.Inv.pop {s : State} (hs : s.Inv) (h : 0 < s.depth.val) :
    (s.setStack s.stack ⟨s.depth.val - 1, by omega⟩).Inv := by
  obtain ⟨hmem, hpc, hstack⟩ := hs
  exact ⟨hmem, hpc, fun k (hk : k.val < s.depth.val - 1) => hstack k (by omega)⟩

/-- The slot a pop takes its value from is live. -/
theorem State.Inv.top_le {s : State} (hs : s.Inv) (h : 0 < s.depth.val) : s.stack[s.depth.val - 1].toNat ≤ 0x1000 := by
  obtain ⟨-, -, hstack⟩ := hs
  exact hstack ⟨s.depth.val - 1, by omega⟩ (Nat.sub_lt h Nat.one_pos)

/-! ### The invariant in the execute step -/

/-- What holds where a meaning runs: the invariant, and `pc` two past an address that was fetched from (R120). -/
structure State.AtExecute (s : State) : Prop where
  inv : s.Inv
  two_le_pc : 2 ≤ s.pc.toNat
  pc_le : s.pc.toNat ≤ 0x1000

theorem advance_atExecute {s : State} (hs : s.Inv) (h : s.pc.toNat ≤ 0xFFE) : (advance s).AtExecute := by
  have hpc : (s.pc + 2).toNat = s.pc.toNat + 2 := by bv_omega
  have hlo : 2 ≤ (s.pc + 2).toNat := by omega
  have hhi : (s.pc + 2).toNat ≤ 0x1000 := by omega
  exact ⟨State.Inv.setPc hs (hhi.trans (by decide)), hlo, hhi⟩

theorem State.AtExecute.skip {s : State} (hs : s.AtExecute) (c : Prop) [Decidable c] :
    (s.setPc (if c then s.pc + 2 else s.pc)).Inv := by
  have hpc := hs.pc_le
  refine hs.inv.setPc ?_
  split
  · bv_omega
  · omega

theorem State.AtExecute.skipIf {s : State} (hs : s.AtExecute) (c : Bool) : (s.skipIf c).Inv := by
  rw [State.skipIf_eq]
  exact hs.skip _

/-- `Fx0A` without a pressed key goes back to an address that was fetched from (44_keys_timers.md R213). -/
theorem State.AtExecute.stepBack {s : State} (hs : s.AtExecute) : (s.setPc (s.pc - 2)).Inv := by
  have hlo := hs.two_le_pc
  have hhi := hs.pc_le
  exact hs.inv.setPc (by bv_omega)

/-- The largest target of a jump is that of `Bnnn` (40_flow.md R129): `0xFFF + 0xFF = 0x10FE`. -/
theorem jpV0_target_le (nnn : BitVec 12) (v : Byte) : (zextNnn nnn + v.zext16).toNat ≤ 0x10FE := by
  have hn := toNat_zextNnn nnn
  have hv := Byte.toNat_zext16 v
  have := nnn.isLt
  have := v.isLt
  rw [BitVec.toNat_add]
  omega

theorem zextNnn_le (nnn : BitVec 12) : (zextNnn nnn).toNat ≤ 0xFFF := by
  have := nnn.isLt
  rw [toNat_zextNnn]
  omega

theorem writeShift_inv {s : State} (hs : s.Inv) (x : Reg) (result : Byte) (flag : Bool) :
    (writeShift x result flag s).Inv := by
  rw [writeShift_frame]
  exact hs

/-- Every instruction keeps the invariant. What needs an argument is what moves `pc`, touches the stack, stores bytes or
branches; the rest writes registers, framebuffer, timers, the draw count or the latch. -/
theorem exec_keeps_inv {i : Instr} {s t : State} (hs : s.AtExecute) (h : exec i s = .next t) : t.Inv := by
  have hinv := hs.inv
  cases i
  case ret =>
    rcases execRet_cases s with ⟨-, e⟩ | ⟨hd, e⟩ <;> cases e.symm.trans h
    · exact hinv
    · exact (hinv.pop hd).setPc (by have := hinv.top_le hd; omega)
  case call nnn =>
    rcases execCall_cases nnn s with ⟨-, e⟩ | ⟨hd, e⟩ <;> cases e.symm.trans h
    · exact hinv
    · exact (hinv.push hs.pc_le hd).setPc (by have := zextNnn_le nnn; omega)
  case jp nnn => cases h; exact hinv.setPc (by have := zextNnn_le nnn; omega)
  case jpV0 nnn => cases h; exact hinv.setPc (jpV0_target_le nnn _)
  case seVxKk => cases h; exact hs.skipIf _
  case sneVxKk => cases h; exact hs.skipIf _
  case seVxVy => cases h; exact hs.skipIf _
  case sneVxVy => cases h; exact hs.skipIf _
  case skp x =>
    rcases execSkp_cases x s with ⟨-, e⟩ | ⟨_, e⟩ <;> cases e.symm.trans h
    · exact hinv
    · exact hs.skip _
  case sknp x =>
    rcases execSknp_cases x s with ⟨-, e⟩ | ⟨_, e⟩ <;> cases e.symm.trans h
    · exact hinv
    · rw [← ite_not]; exact hs.skip _
  case ldVxK x =>
    rcases execLdVxK_cases x s with ⟨-, e⟩ | ⟨_, -, -, e⟩ <;> cases e.symm.trans h
    · exact hs.stepBack
    · exact hinv
  case ldBVx x =>
    rcases execLdBVx_cases x s with ⟨-, e⟩ | ⟨hr, e⟩ <;> cases e.symm.trans h
    · exact hinv
    · exact hinv.store hr
  case ldMemVx x =>
    rcases execLdMemVx_cases x s with ⟨-, e⟩ | ⟨hr, e⟩ <;> cases e.symm.trans h
    · exact hinv
    · exact hinv.store (by rwa [State.regsUpTo_length])
  case ldVxMem x => rcases execLdVxMem_cases x s with ⟨-, e⟩ | ⟨-, e⟩ <;> cases e.symm.trans h <;> exact hinv
  case drw x y n => rcases execDrw_cases x y n s with ⟨-, -, e⟩ | ⟨-, e⟩ <;> cases e.symm.trans h <;> exact hinv
  case shrVx => cases h; exact writeShift_inv hinv _ _ _
  case shlVx => cases h; exact writeShift_inv hinv _ _ _
  all_goals cases h; exact hinv

/-! ### The invariant in a step -/

/-- A `Cycle` keeps the invariant: a fault changes the latch alone, and an instruction runs after the advance. -/
theorem cycle_keeps_inv {s t : State} (hs : s.Inv) (h : cycle s = .next t) : t.Inv := by
  rcases cycle_cases s with ⟨r, -, e⟩ | ⟨-, -, e⟩ | ⟨-, hpc, e⟩
  · cases e.symm.trans h
  · cases e.symm.trans h
    exact hs
  · have hadv := advance_atExecute hs hpc
    rcases decodeExecute_cases (wordOfBytes (s.byte s.pc.toNat) (s.byte (s.pc.toNat + 1))) s.pc (advance s) with
      ⟨r, -, e'⟩ | ⟨i, -, e'⟩
    · cases (e.trans e').symm.trans h
      exact hadv.inv
    · exact exec_keeps_inv hadv ((e.trans e').symm.trans h)

theorem resetUnder_inv (c : Config.Params) : (resetUnder c).Inv :=
  ⟨State.reset_mem_wf, show (0x200#16).toNat ≤ 0x10FE by decide, fun _ hk => absurd hk (Nat.not_lt_zero _)⟩

theorem loadROM_stateOr_inv {s : State} (hs : s.Inv) (bytes : List Byte) : ((loadROM bytes s).stateOr s).Inv := by
  rcases loadROM_cases bytes s with ⟨hlen, e⟩ | ⟨-, e⟩ <;> rw [e]
  · exact State.Inv.store hs (by simp only [Config.progBase, Config.memSize]; omega)
  · exact hs

theorem press_stateOr_inv {s : State} (hs : s.Inv) (k : Nat) : ((press k s).stateOr s).Inv := by
  unfold press
  split <;> exact hs

theorem release_stateOr_inv {s : State} (hs : s.Inv) (k : Nat) : ((release k s).stateOr s).Inv := by
  unfold release
  split
  · split <;> exact hs
  · exact hs

theorem unlessFaulted_keeps_inv {s t u : State} (ht : t.Inv) (h : unlessFaulted s t = .next u) : u.Inv := by
  rcases unlessFaulted_cases s t with ⟨-, e⟩ | ⟨r, -, e⟩ <;> cases e.symm.trans h
  exact ht

theorem bootLoad_keeps_inv {s t : State} {bytes : List Byte} (hs : s.Inv) (h : bootLoad bytes s = .next t) : t.Inv := by
  by_cases hc : s.session = .constructed
  · simp only [bootLoad, hc] at h
    exact unlessFaulted_keeps_inv (loadROM_stateOr_inv hs bytes) h
  · cases (bootLoad_of_not_constructed hc bytes).symm.trans h

/-- Every operation of the interface keeps the invariant. -/
theorem operate_keeps_inv {op : Operation} {s t : State} (hs : s.Inv) (h : operate op s = .next t) : t.Inv := by
  cases op with
  | reset => cases h; exact resetUnder_inv s.config
  | loadROM bytes => exact bootLoad_keeps_inv hs h
  | cycle => exact cycle_keeps_inv hs h
  | tick => exact unlessFaulted_keeps_inv (t := tick s) hs h
  | press k => exact unlessFaulted_keeps_inv (press_stateOr_inv hs k) h
  | release k => exact unlessFaulted_keeps_inv (release_stateOr_inv hs k) h
  | pixelAt cx cy => exact unlessFaulted_keeps_inv hs h

/-- Settles O3: a step is a `Cycle` or the oldest operation, and each keeps the invariant. -/
theorem everyStepKeepsTheInvariant : Obligations.EveryStepKeepsTheInvariant := by
  intro s t hs h
  cases hp : s.pending with
  | nil => exact cycle_keeps_inv hs (step_of_pending_nil hp ▸ h)
  | cons op rest => exact operate_keeps_inv (s := s.setPending rest) hs (step_of_pending_cons hp ▸ h)

/-! ### Reset -/

/-- Settles O1: memory by `reset_byte`, and every other field is a literal of `State.reset`. -/
theorem resetLeavesTheListedValues : Obligations.ResetLeavesTheListedValues := by
  refine ⟨fun c => ⟨fun a h => ?font, fun a h _ => ?above, fun x => ?reg, rfl, rfl, fun k => ?slot, rfl, ?pixel, rfl, rfl,
    fun k => ?key, rfl⟩, rfl, rfl⟩
  case font => exact (reset_byte c a).trans (dif_pos h)
  case above => exact (reset_byte c a).trans (dif_neg (Nat.not_lt.mpr h))
  case reg => exact Vector.getElem_replicate x.isLt
  case slot => exact Vector.getElem_replicate k.isLt
  case pixel => exact Framebuffer.pixel_clear
  case key => exact Vector.getElem_replicate k.isLt

/-- Settles O2: reset memory lists nothing, `pc` is 0x200 and no slot is live. -/
theorem invariantHoldsAtReset : Obligations.InvariantHoldsAtReset :=
  ⟨resetUnder_inv Config.Params.decided, resetUnder_inv⟩

/-- Settles O4: the step performs `Reset`, which keeps of the state before it only what log 25 names. -/
theorem resetForgetsTheStateBefore : Obligations.ResetForgetsTheStateBefore :=
  fun s rest h => (step_of_pending_cons h).trans (operate_reset (s.setPending rest))

/-! ### What an instruction does with `ST` -/

/-- An outcome with another value in the `ST` of its next state. -/
def outcomeWithST (v : Byte) : Result → Result
  | .next t => .next (t.setST v)
  | .fault r => .fault r
  | .refused r => .refused r

theorem State.skipIf_setST (s : State) (v : Byte) (c : Bool) : (s.setST v).skipIf c = (s.skipIf c).setST v := by
  cases c <;> rfl

theorem writeShift_setST (x : Reg) (result : Byte) (flag : Bool) (s : State) (v : Byte) :
    writeShift x result flag (s.setST v) = (writeShift x result flag s).setST v := by
  rw [writeShift, writeShift, State.setST_config]
  cases s.config.vfDestOrder <;> rfl

theorem State.push?_setST (s : State) (v : Byte) (w : Word) :
    (s.setST v).push? w = (s.push? w).map (·.setST v) := by
  rw [State.push?, State.push?, apply_dite (Option.map _)]
  rfl

theorem State.pop?_setST (s : State) (v : Byte) :
    (s.setST v).pop? = s.pop?.map fun p => (p.1, p.2.setST v) := by
  rw [State.pop?, State.pop?, apply_dite (Option.map _)]
  rfl

theorem State.dataFault_setST (s : State) (v : Byte) (n : Nat) : (s.setST v).dataFault n = s.dataFault n := rfl

/-- An instruction other than `Fx18` neither reads nor writes `ST`. What branches does so on the stack's depth, on a range
check, on a key or on `VF_DEST_ORDER`, none of which `ST` enters. -/
theorem exec_setST {i : Instr} (hi : ∀ x, i ≠ .ldSTVx x) (s : State) (v : Byte) :
    exec i (s.setST v) = outcomeWithST v (exec i s) := by
  cases i
  case ldSTVx x => exact absurd rfl (hi x)
  case ret =>
    simp only [exec, execRet, State.pop?_setST]
    cases s.pop? <;> rfl
  case call nnn =>
    simp only [exec, execCall, State.push?_setST, State.setST_pc]
    cases s.push? s.pc <;> rfl
  case drw x y n =>
    simp only [exec, execDrw, State.dataFault_setST]
    cases s.dataFault n.val <;> rfl
  case ldBVx x =>
    simp only [exec, execLdBVx, State.dataFault_setST]
    cases s.dataFault 3 <;> rfl
  case ldMemVx x =>
    simp only [exec, execLdMemVx, State.dataFault_setST]
    cases s.dataFault (x.val + 1) <;> rfl
  case ldVxMem x =>
    simp only [exec, execLdVxMem, State.dataFault_setST]
    cases s.dataFault (x.val + 1) <;> rfl
  case skp x =>
    simp only [exec, execSkp, State.setST_reg, State.setST_key, State.skipIf_setST]
    cases keyCode? (s.reg x) <;> rfl
  case sknp x =>
    simp only [exec, execSknp, State.setST_reg, State.setST_key, State.skipIf_setST]
    cases keyCode? (s.reg x) <;> rfl
  case ldVxK x =>
    simp only [exec, execLdVxK, State.setST_key]
    cases leastPressed s.key <;> rfl
  case seVxKk => exact congrArg Host.Outcome.next (State.skipIf_setST s v _)
  case sneVxKk => exact congrArg Host.Outcome.next (State.skipIf_setST s v _)
  case seVxVy => exact congrArg Host.Outcome.next (State.skipIf_setST s v _)
  case sneVxVy => exact congrArg Host.Outcome.next (State.skipIf_setST s v _)
  case shrVx => exact congrArg Host.Outcome.next (writeShift_setST _ _ _ s v)
  case shlVx => exact congrArg Host.Outcome.next (writeShift_setST _ _ _ s v)
  all_goals rfl

/-- `Fx18` overwrites `ST` without reading it. -/
theorem exec_ldSTVx_setST (x : Reg) (s : State) (v : Byte) : exec (.ldSTVx x) (s.setST v) = exec (.ldSTVx x) s := rfl

/-- Settles O47: `exec_ldSTVx_setST` is `Fx18`, `exec_setST` every other instruction. -/
theorem noInstructionReadsTheSoundTimer : Obligations.NoInstructionReadsTheSoundTimer := by
  intro i s t v h
  change exec i (s.setST v) = _
  split
  next x => exact (exec_ldSTVx_setST x s v).trans h
  next hi => rw [exec_setST hi, h]; rfl

end Sys2Proof.Machine
end

section
/-! PROOFS about memory (spec 20_memory.md): the checked primitives (R66, R67), a block store as its byte writes (R63, R71),
a store seen by the next fetch (R76), and the frame of memory for every instruction. -/

namespace Sys2Proof.Machine

/-! ### The checked primitives -/

section
variable {font : Config.Font} {m : Memory}

theorem memRead16_ok {addr : Nat} (h : addr ≤ 0xFFE) :
    memRead16 font m addr = .ok (wordOfBytes (m.read font addr) (m.read font (addr + 1))) := by
  rcases memRead16_cases font m addr with ⟨-, e⟩ | ⟨h', -⟩
  · exact e
  · omega

theorem memRead16_error {addr : Nat} (h : 0xFFE < addr) : memRead16 font m addr = .error (max addr 0x1000) := by
  rcases memRead16_cases font m addr with ⟨h', -⟩ | ⟨-, e⟩
  · omega
  · exact e

theorem memWrite_ok {addr : Nat} (h : addr ≤ 0xFFF) (v : Byte) : memWrite font m addr v = .ok (m.write font addr v) :=
  if_pos h

theorem memWrite_error {addr : Nat} (h : 0xFFF < addr) (v : Byte) : memWrite font m addr v = .error addr :=
  if_neg (Nat.not_le.mpr h)

end

/-- Settles O35: `memRead_ok` and `memRead_error` are the 1-byte read, `memRead16_ok` and `memRead16_error` the 2-byte one,
whose faulting address `max a 0x1000` is 0x1000 at 0xFFF and `a` above it. -/
theorem memReadChecksItsAddress : Obligations.MemReadChecksItsAddress := by
  intro font m a
  refine ⟨?byte, fun h => ⟨_, memRead16_ok h, ?value⟩, ?last, fun h => ?above⟩
  case byte =>
    split
    · exact memRead_error ‹_›
    · exact memRead_ok (by omega)
  case value => rw [toNat_wordOfBytes, Nat.mul_comm]
  case last => rintro rfl; exact memRead16_error (by decide)
  case above => rw [memRead16_error (by omega), Nat.max_eq_left h]

/-- Settles O36: inside memory the write is `Memory.write`, which keeps the canonical form (`Memory.write_wf`) and changes one
byte (`Memory.read_write`). -/
theorem memWriteChangesOneByte : Obligations.MemWriteChangesOneByte := by
  intro font m a v hm
  refine ⟨fun h => memWrite_error h v, fun h => ⟨_, memWrite_ok h v, Memory.write_wf hm (Nat.lt_succ_of_le h) v, ?_, ?_⟩⟩
  · rw [Memory.read_write hm, if_pos rfl]
  · intro b hb
    rw [Memory.read_write hm, if_neg hb]

/-! ### A run of bytes as its byte writes -/

/-- What byte writes at ascending addresses from `base + k` on do: the block store where the run lies inside memory, else the
fault of the first of them above 0xFFF. -/
theorem foldlM_memWrite_zipIdx (font : Config.Font) (base : Nat) (vs : List Byte) (m : Memory) (k : Nat) :
    (vs.zipIdx k).foldlM (fun n (c : Byte × Nat) => memWrite font n (base + c.2) c.1) m =
      if vs.length = 0 ∨ base + k + vs.length ≤ 0x1000 then .ok (storeBlock font m (base + k) vs)
      else .error (max (base + k) 0x1000) := by
  induction vs generalizing m k with
  | nil => rfl
  | cons v vs ih =>
    rw [List.zipIdx_cons, List.foldlM_cons, List.length_cons]
    rcases Nat.lt_or_ge 0xFFF (base + k) with hout | hin
    · rw [memWrite_error hout, if_neg (by omega), Nat.max_eq_left hout]
      rfl
    · rw [memWrite_ok hin]
      refine (ih (m.write font (base + k) v) (k + 1)).trans ?_
      by_cases hfit : base + k + (vs.length + 1) ≤ 0x1000
      · rw [if_pos (by omega), if_pos (.inr hfit)]
        rfl
      · rw [if_neg (by omega), if_neg (by omega), Nat.max_eq_right (by omega), Nat.max_eq_right (by omega)]

/-- Settles O37: the byte writes of `foldlM_memWrite_zipIdx` from offset 0 split by the same condition as the range check
(`blockFault_eq`). -/
theorem blockStoreIsByteWritesInOrder : Obligations.BlockStoreIsByteWritesInOrder := by
  intro font vs m base
  rw [foldlM_memWrite_zipIdx, blockFault_eq, Nat.add_zero]
  by_cases h : vs.length = 0 ∨ base + vs.length ≤ 0x1000
  · rw [if_pos h, if_pos h]
  · rw [if_neg h, if_neg h]

/-! ### A store and the fetch after it -/

/-- A fetch inside memory answers the word at `pc` (R62). -/
theorem fetch_ok {s : State} (h : s.pc.toNat ≤ 0xFFE) : fetch s = .ok (s.wordAt s.pc.toNat) := memRead16_ok h

/-- `Fx55` inside memory stores `V0..Vx` from `I` on. -/
theorem execLdMemVx_of_le {x : Reg} {s : State} (h : s.I.toNat + x.val ≤ 0xFFF) :
    execLdMemVx x s = .next (s.store s.I.toNat (s.regsUpTo x)) := by
  rcases execLdMemVx_cases x s with ⟨h', -⟩ | ⟨-, e⟩
  · omega
  · exact e

/-- After `V0..Vx` are stored from `base` on, the byte at `base + k` is `V[k]`. -/
theorem State.store_regsUpTo_byte {s : State} (hs : s.MemWf) {x : Reg} {base : Nat} (h : base + x.val ≤ 0xFFF) {k : Reg}
    (hk : k.val ≤ x.val) : (s.store base (s.regsUpTo x)).byte (base + k.val) = s.reg k := by
  have hlen := s.regsUpTo_length x
  rw [State.store_byte_inside hs (by simp only [hlen, Config.memSize]; omega) k.val (by omega), State.regsUpTo_getElem]

/-- Settles O38: `pc` and `pc + 1` are the first two bytes of the run that `Fx55` stores, and the fetch reads them. -/
theorem storeIsSeenByTheNextFetch : Obligations.StoreIsSeenByTheNextFetch := by
  intro x s t hs hx hpc hr h
  cases (execLdMemVx_of_le hr).symm.trans h
  have hhi : (s.store s.I.toNat (s.regsUpTo x)).byte s.I.toNat = s.reg 0 :=
    State.store_regsUpTo_byte hs hr (k := 0) (Nat.zero_le _)
  have hlo : (s.store s.I.toNat (s.regsUpTo x)).byte (s.I.toNat + 1) = s.reg 1 :=
    State.store_regsUpTo_byte hs hr (k := 1) hx
  refine ⟨_, fetch_ok (by rw [State.store_pc, ← hpc]; omega), ?_⟩
  rw [State.store_pc, ← hpc, State.wordAt, toNat_wordOfBytes, hhi, hlo, Nat.mul_comm]

/-! ### The frame of memory -/

/-- Everything an instruction can do to memory: leave it, or store `storedBytes i` bytes from `I` on, inside memory. The
setting of the parameters, under which memory is read, stays either way. -/
theorem exec_memory_cases {i : Instr} {s t : State} (h : exec i s = .next t) :
    (t.mem = s.mem ∧ t.config = s.config) ∨
    ∃ vs, vs.length = storedBytes i ∧ s.I.toNat + vs.length ≤ Config.memSize ∧ t = s.store s.I.toNat vs := by
  cases i
  case ldBVx x =>
    rcases execLdBVx_cases x s with ⟨-, e⟩ | ⟨hr, e⟩ <;> cases e.symm.trans h
    · exact .inl ⟨rfl, rfl⟩
    · exact .inr ⟨decimalDigits (s.reg x), rfl, hr, rfl⟩
  case ldMemVx x =>
    rcases execLdMemVx_cases x s with ⟨-, e⟩ | ⟨hr, e⟩ <;> cases e.symm.trans h
    · exact .inl ⟨rfl, rfl⟩
    · exact .inr ⟨s.regsUpTo x, s.regsUpTo_length x, by rwa [State.regsUpTo_length], rfl⟩
  case ret => rcases execRet_cases s with ⟨-, e⟩ | ⟨_, e⟩ <;> cases e.symm.trans h <;> exact .inl ⟨rfl, rfl⟩
  case call nnn => rcases execCall_cases nnn s with ⟨-, e⟩ | ⟨_, e⟩ <;> cases e.symm.trans h <;> exact .inl ⟨rfl, rfl⟩
  case drw x y n => rcases execDrw_cases x y n s with ⟨-, -, e⟩ | ⟨-, e⟩ <;> cases e.symm.trans h <;> exact .inl ⟨rfl, rfl⟩
  case skp x => rcases execSkp_cases x s with ⟨-, e⟩ | ⟨_, e⟩ <;> cases e.symm.trans h <;> exact .inl ⟨rfl, rfl⟩
  case sknp x => rcases execSknp_cases x s with ⟨-, e⟩ | ⟨_, e⟩ <;> cases e.symm.trans h <;> exact .inl ⟨rfl, rfl⟩
  case ldVxK x => rcases execLdVxK_cases x s with ⟨-, e⟩ | ⟨_, -, -, e⟩ <;> cases e.symm.trans h <;> exact .inl ⟨rfl, rfl⟩
  case ldVxMem x => rcases execLdVxMem_cases x s with ⟨-, e⟩ | ⟨-, e⟩ <;> cases e.symm.trans h <;> exact .inl ⟨rfl, rfl⟩
  case seVxKk | sneVxKk | seVxVy | sneVxVy => cases h; rw [State.skipIf_eq]; exact .inl ⟨rfl, rfl⟩
  case shrVx | shlVx => cases h; rw [writeShift_frame]; exact .inl ⟨rfl, rfl⟩
  all_goals cases h; exact .inl ⟨rfl, rfl⟩

/-- A byte is its memory read under its setting of the parameters. -/
theorem State.byte_congr {s t : State} (hm : t.mem = s.mem) (hc : t.config = s.config) (a : Nat) : t.byte a = s.byte a := by
  rw [State.byte, State.byte, hm, hc]

/-- Settles O59: memory is kept, or a run of `storedBytes i` bytes is stored inside it (`exec_memory_cases`). -/
theorem memoryKeepsOutsideStoredBytes : Obligations.MemoryKeepsOutsideStoredBytes := by
  intro i s t hs h
  rcases exec_memory_cases h with ⟨hm, hc⟩ | ⟨vs, hlen, hr, rfl⟩
  · exact ⟨by rwa [State.MemWf, hm, hc], fun a _ => State.byte_congr hm hc a⟩
  · exact ⟨State.store_memWf hs hr, fun a ha => State.store_byte_outside hs hr (by rwa [hlen])⟩

end Sys2Proof.Machine
end

section
/-! PROOFS about the encoding (spec 30_encoding.md): decoder and encoder undo each other (R103), the words without an
instruction (R96), the opcode table against the decode algorithm (R94, R95), and the unused field of the shifts (R99). -/

namespace Sys2Proof

/-! ### Decoding an encoded instruction -/

/-- `sys` is well-formed where its word is neither of the two exact matches of its family. -/
theorem wellFormed_sys_iff {nnn : BitVec 12} :
    WellFormed (.sys nnn) = true ↔ encNnn 0x0 nnn ≠ 0x00E0#16 ∧ encNnn 0x0 nnn ≠ 0x00EE#16 := by
  have hcls : 0x00E0#16 = encNnn 0x0 0x0E0#12 := rfl
  have hret : 0x00EE#16 = encNnn 0x0 0x0EE#12 := rfl
  simp [WellFormed, hcls, hret, encNnn_inj]

/-- Settles O5: the fields of an instruction's word are those filled in, so the decoder takes the instruction's own arm; only
in family 0 does it need `WellFormed`. -/
theorem decodeOfEncodeIsTheInstruction : Obligations.DecodeOfEncodeIsTheInstruction := by
  intro i hi
  cases i
  case cls | ret => decide
  case sys nnn =>
    obtain ⟨hcls, hret⟩ := wellFormed_sys_iff.mp hi
    simp [encode, decodeWord, decode0, hcls, hret]
  case ldVxVy | orVxVy | andVxVy | xorVxVy | addVxVy | subVxVy | shrVx | subnVxVy | shlVx =>
    simp [encode, decodeWord, decode8]
  case skp | sknp => simp [encode, decodeWord, decodeE]
  case ldVxDT | ldVxK | ldDTVx | ldSTVx | addIVx | ldFVx | ldBVx | ldMemVx | ldVxMem =>
    simp [encode, decodeWord, decodeF]
  all_goals simp [encode, decodeWord]

/-- No two well-formed instructions have one word. -/
theorem encode_inj {i j : Instr} (hi : WellFormed i = true) (hj : WellFormed j = true) (h : encode i = encode j) :
    i = j := by
  have hdec := decodeOfEncodeIsTheInstruction i hi
  rw [h, decodeOfEncodeIsTheInstruction j hj] at hdec
  exact (Except.ok.inj hdec).symm

/-! ### What the decoder answers to a word -/

/-- The word lies in one of the five illegal spaces of R96 beside `SYS`. -/
def InIllegalSpace (op : Word) : Prop :=
  (fieldTop op = 0x5 ∧ fieldN op ≠ 0) ∨ (fieldTop op = 0x8 ∧ 7 < (fieldN op).val ∧ fieldN op ≠ 0xE) ∨
  (fieldTop op = 0x9 ∧ fieldN op ≠ 0) ∨
  (fieldTop op = 0xE ∧ (fieldKk op).toNat ∉ [0x9E, 0xA1]) ∨
  (fieldTop op = 0xF ∧ (fieldKk op).toNat ∉ [0x07, 0x0A, 0x15, 0x18, 0x1E, 0x29, 0x33, 0x55, 0x65])

/-- An answer that fits a word: a well-formed instruction that encodes to it, or a rejection where it is illegal. -/
inductive Answers (op : Word) : Except DecodeReject Instr → Prop
  | ok {i : Instr} (hwf : WellFormed i = true) (henc : encode i = op) : Answers op (.ok i)
  | error {r : DecodeReject} (hill : InIllegalSpace op) : Answers op (.error r)

section
variable {op : Word} {t : Fin 16}

theorem encNnn_of_top (ht : fieldTop op = t) : encNnn t (fieldNnn op) = op := ht ▸ encNnn_fields op

theorem encXkk_of_top (ht : fieldTop op = t) : encXkk t (fieldX op) (fieldKk op) = op := ht ▸ encXkk_fields op

theorem encXkk_of_top_kk {kk : Byte} (ht : fieldTop op = t) (hk : fieldKk op = kk) : encXkk t (fieldX op) kk = op :=
  hk ▸ encXkk_of_top ht

theorem encXyn_of_top (ht : fieldTop op = t) : encXyn t (fieldX op) (fieldY op) (fieldN op) = op := ht ▸ encXyn_fields op

theorem encXyn_of_top_n {n : Fin 16} (ht : fieldTop op = t) (hn : fieldN op = n) :
    encXyn t (fieldX op) (fieldY op) n = op := hn ▸ encXyn_of_top ht

theorem answers_decode0 (ht : fieldTop op = 0x0) : Answers op (.ok (decode0 op)) := by
  unfold decode0
  split_ifs with hcls hret
  · exact .ok rfl hcls.symm
  · exact .ok rfl hret.symm
  · have henc : encNnn 0x0 (fieldNnn op) = op := encNnn_of_top ht
    exact .ok (wellFormed_sys_iff.mpr ⟨henc.symm ▸ hcls, henc.symm ▸ hret⟩) henc

theorem answers_decode8 (ht : fieldTop op = 0x8) : Answers op (decode8 op) := by
  unfold decode8
  split
  case h_10 =>
    have hn : 7 < (fieldN op).val ∧ fieldN op ≠ 0xE := by grind
    exact .error (.inr (.inl ⟨ht, hn⟩))
  all_goals exact .ok rfl (encXyn_of_top_n ht ‹_›)

theorem answers_decodeE (ht : fieldTop op = 0xE) : Answers op (decodeE op) := by
  unfold decodeE
  split_ifs
  case neg => exact .error (.inr (.inr (.inr (.inl ⟨ht, by simp_all [← BitVec.toNat_inj]⟩))))
  all_goals exact .ok rfl (encXkk_of_top_kk ht ‹_›)

theorem answers_decodeF (ht : fieldTop op = 0xF) : Answers op (decodeF op) := by
  unfold decodeF
  split_ifs
  case neg => exact .error (.inr (.inr (.inr (.inr ⟨ht, by simp_all [← BitVec.toNat_inj]⟩))))
  all_goals exact .ok rfl (encXkk_of_top_kk ht ‹_›)
end

/-- Everything the decoder can answer, by the word's family (R95). -/
theorem answers_decodeWord (op : Word) : Answers op (decodeWord op) := by
  unfold decodeWord
  split
  case h_1 ht => exact answers_decode0 ht
  case h_6 ht =>
    split_ifs with hn
    · exact .ok rfl (encXyn_of_top_n ht hn)
    · exact .error (.inl ⟨ht, hn⟩)
  case h_9 ht => exact answers_decode8 ht
  case h_10 ht =>
    split_ifs with hn
    · exact .ok rfl (encXyn_of_top_n ht hn)
    · exact .error (.inr (.inr (.inl ⟨ht, hn⟩)))
  case h_14 ht => exact .ok rfl (encXyn_of_top ht)
  case h_15 ht => exact answers_decodeE ht
  case h_16 =>
    have ht : fieldTop op = 0xF := by grind
    exact answers_decodeF ht
  case h_2 ht | h_3 ht | h_11 ht | h_12 ht => exact .ok rfl (encNnn_of_top ht)
  case h_4 ht | h_5 ht | h_7 ht | h_8 ht | h_13 ht => exact .ok rfl (encXkk_of_top ht)

/-- Settles O6: it is what `answers_decodeWord` says of an accepted word. -/
theorem encodeOfDecodeIsTheWord : Obligations.EncodeOfDecodeIsTheWord := by
  intro op i h
  have hans := answers_decodeWord op
  rw [h] at hans
  cases hans with
  | ok hwf henc => exact ⟨hwf, henc⟩

/-- The word of an instruction lies in no illegal space: the field that its space looks at is the instruction's own. -/
theorem not_inIllegalSpace_encode (i : Instr) : ¬InIllegalSpace (encode i) := by
  cases i <;> simp [InIllegalSpace, encode]

/-- The decoder rejects exactly the words of the illegal spaces. -/
theorem decodeWord_error_iff (op : Word) : (∃ r, decodeWord op = .error r) ↔ InIllegalSpace op := by
  have hans := answers_decodeWord op
  constructor
  · rintro ⟨r, h⟩
    rw [h] at hans
    cases hans with
    | error hill => exact hill
  · intro hill
    cases h : decodeWord op with
    | error r => exact ⟨r, rfl⟩
    | ok i =>
      obtain ⟨-, rfl⟩ := encodeOfDecodeIsTheWord op i h
      exact absurd hill (not_inIllegalSpace_encode i)

/-- Settles O9: `InIllegalSpace` is the statement's list of spaces. -/
theorem rejectedWordsAreTheListedSpaces : Obligations.RejectedWordsAreTheListedSpaces := decodeWord_error_iff

/-- Settles O10, by running the decoder on the words. -/
theorem writtenOutWordsDecode : Obligations.WrittenOutWordsDecode := by
  unfold Obligations.WrittenOutWordsDecode
  decide

/-! ### The rows of the opcode table -/

/-- Two rows that one word selects agree where both their masks look. -/
theorem patterns_agree {r q : OpcodeRow} {op : Word} (hr : r.selects op = true) (hq : q.selects op = true) :
    r.pattern &&& q.mask = q.pattern &&& r.mask := by
  rw [← beq_iff_eq.mp hr, ← beq_iff_eq.mp hq, BitVec.and_assoc, BitVec.and_assoc, BitVec.and_comm r.mask]

/-- The only rows whose patterns agree so are the two exact matches of family 0, each with the row of `SYS`. -/
theorem opcodeTable_agree : ∀ j k : Fin opcodeTable.length, j < k →
    opcodeTable[j].pattern &&& opcodeTable[k].mask = opcodeTable[k].pattern &&& opcodeTable[j].mask →
    k.val = 2 ∧ (j.val = 0 ∨ j.val = 1) := by decide

/-- Settles O8: rows with a word in common agree (`patterns_agree`), which of the table's pairs leaves two, and there the
earlier row's mask keeps the whole word. -/
theorem rowsAreDisjointExceptSys : Obligations.RowsAreDisjointExceptSys := by
  refine ⟨rfl, fun op j k r q hj hk hjk hr hq => ?_⟩
  obtain ⟨hjlt, rfl⟩ := List.getElem?_eq_some_iff.mp hj
  obtain ⟨hklt, rfl⟩ := List.getElem?_eq_some_iff.mp hk
  obtain ⟨rfl, rfl | rfl⟩ := opcodeTable_agree ⟨j, hjlt⟩ ⟨k, hklt⟩ hjk (patterns_agree hr hq)
  · exact ⟨rfl, .inl ⟨rfl, of_decide_eq_true ((selects_fixed _ op).symm.trans hr)⟩⟩
  · exact ⟨rfl, .inr ⟨rfl, of_decide_eq_true ((selects_fixed _ op).symm.trans hr)⟩⟩

/-! ### The row of an instruction, and of a word -/

theorem selects_of_top {op : Word} {t : Fin 16} (ht : fieldTop op = t) :
    OpcodeRow.selects ⟨0xF000, encNnn t 0⟩ op = true := (selects_nnn t op).trans (decide_eq_true ht)

theorem selects_of_top_n {op : Word} {t n : Fin 16} (ht : fieldTop op = t) (hn : fieldN op = n) :
    OpcodeRow.selects ⟨0xF00F, encXyn t 0 0 n⟩ op = true := (selects_xyn t n op).trans (decide_eq_true ⟨ht, hn⟩)

theorem selects_of_top_kk {op : Word} {t : Fin 16} {kk : Byte} (ht : fieldTop op = t) (hk : fieldKk op = kk) :
    OpcodeRow.selects ⟨0xF0FF, encXkk t 0 kk⟩ op = true := (selects_xkk t kk op).trans (decide_eq_true ⟨ht, hk⟩)

/-- The row of an instruction selects its word. -/
theorem rowIndex_selects_encode (i : Instr) :
    ∃ r, opcodeTable[rowIndex i]? = some r ∧ r.selects (encode i) = true := by
  cases i
  case cls | ret => exact ⟨_, rfl, rfl⟩
  case sys | jp | call | ldI | jpV0 => exact ⟨_, rfl, selects_of_top (fieldTop_encNnn _ _)⟩
  case seVxKk | sneVxKk | ldVxKk | addVxKk | rnd => exact ⟨_, rfl, selects_of_top (fieldTop_encXkk _ _ _)⟩
  case drw => exact ⟨_, rfl, selects_of_top (fieldTop_encXyn _ _ _ _)⟩
  case skp | sknp | ldVxDT | ldVxK | ldDTVx | ldSTVx | addIVx | ldFVx | ldBVx | ldMemVx | ldVxMem =>
    exact ⟨_, rfl, selects_of_top_kk (fieldTop_encXkk _ _ _) (fieldKk_encXkk _ _ _)⟩
  all_goals exact ⟨_, rfl, selects_of_top_n (fieldTop_encXyn _ _ _ _) (fieldN_encXyn _ _ _ _)⟩

/-- No earlier row selects the word of a well-formed instruction: by O8 it would be an exact match of family 0, and the
later row that of `SYS`. -/
theorem selectRow_encode {i : Instr} (hi : WellFormed i = true) : selectRow (encode i) = some (rowIndex i) := by
  obtain ⟨-, hdisj⟩ := rowsAreDisjointExceptSys
  obtain ⟨q, hq, hsel⟩ := rowIndex_selects_encode i
  obtain ⟨hlt, rfl⟩ := List.getElem?_eq_some_iff.mp hq
  refine List.findIdx?_eq_some_iff_getElem.mpr ⟨hlt, hsel, fun j hj hr => ?_⟩
  obtain ⟨hk, ⟨-, hop⟩ | ⟨-, hop⟩⟩ := hdisj (encode i) j _ _ _ (List.getElem?_eq_getElem _) hq hj hr hsel
  · obtain rfl : i = .cls := encode_inj hi rfl hop
    exact absurd hk (by decide)
  · obtain rfl : i = .ret := encode_inj hi rfl hop
    exact absurd hk (by decide)

/-- No row selects an illegal word: it is neither exact match, its family has no row without a sub-function, and its
sub-function is that of no row. -/
theorem selectRow_of_inIllegalSpace {op : Word} (h : InIllegalSpace op) : selectRow op = none := by
  have hcls : op ≠ 0x00E0 := by rintro rfl; exact not_inIllegalSpace_encode .cls h
  have hret : op ≠ 0x00EE := by rintro rfl; exact not_inIllegalSpace_encode .ret h
  refine List.findIdx?_eq_none_iff.mpr ?_
  simp only [opcodeTable_formats, List.forall_mem_append, List.forall_mem_map, List.forall_mem_cons, selects_nnn,
    selects_xyn, selects_xkk, selects_fixed, hcls, hret]
  obtain ⟨ht, hn⟩ | ⟨ht, h7, hE⟩ | ⟨ht, hn⟩ | ⟨ht, hk⟩ | ⟨ht, hk⟩ := h
  · simp [ht, hn]
  · have hn : ∀ n : Fin 16, n.val ≤ 7 → fieldN op ≠ n := fun n hle e => by omega
    simp [ht, hE, hn]
  · simp [ht, hn]
  · simpa [ht, ← BitVec.toNat_inj] using hk
  · simpa [ht, ← BitVec.toNat_inj] using hk

/-- Settles O7: an accepted word is its instruction's, whose row is the first to select it (`selectRow_encode`), and a
rejected one is illegal, so no row selects it (`selectRow_of_inIllegalSpace`). -/
theorem decoderAgreesWithTheOpcodeTable : Obligations.DecoderAgreesWithTheOpcodeTable := by
  intro op
  cases h : decodeWord op with
  | ok i =>
    obtain ⟨hwf, rfl⟩ := encodeOfDecodeIsTheWord op i h
    exact selectRow_encode hwf
  | error r => exact selectRow_of_inIllegalSpace ((decodeWord_error_iff op).mp ⟨r, h⟩)

end Sys2Proof

namespace Sys2Proof.Machine

/-! ### The unused field of a shift -/

theorem State.setReg_setReg_same (s : State) (x : Reg) (v w : Byte) : (s.setReg x v).setReg x w = s.setReg x w := by
  simp [State.setReg]

theorem State.setReg_comm (s : State) {x y : Reg} (h : x ≠ y) (v w : Byte) :
    (s.setReg x v).setReg y w = (s.setReg y w).setReg x v := by
  simp only [State.setReg, Vector.set_comm _ _ (Fin.val_ne_of_ne h)]

/-- The writes of a shift leave a register alone that is not the destination, and overwrite it where it is `VF`. -/
theorem writeShift_setReg {w x : Reg} (h : w ≠ x) (v result : Byte) (flag : Bool) (s : State) :
    writeShift x result flag (s.setReg w v) =
      if w = vf then writeShift x result flag s else (writeShift x result flag s).setReg w v := by
  rw [writeShift, writeShift, State.setReg_config]
  split_ifs with hw
  · subst hw
    cases s.config.vfDestOrder
    case tableOrder => simp only [State.setReg_setReg_same]
    case flagLast => simp only [State.setReg_comm s h, State.setReg_setReg_same]
  · cases s.config.vfDestOrder <;> simp only [State.setReg_comm _ h, State.setReg_comm _ hw]

/-- Settles O25: both shifts read `x` alone and then write as `writeShift_setReg` says. -/
theorem shiftsDoNotReadVy : Obligations.ShiftsDoNotReadVy := by
  intro x y z w v s h
  have hx : (s.setReg w v).reg x = s.reg x := by rw [State.setReg_reg, if_neg h.symm]
  refine ⟨_, _, rfl, ?_, rfl, ?_⟩
  · rw [exec, execShrVx, hx, writeShift_setReg h]
  · rw [exec, execShlVx, hx, writeShift_setReg h]

end Sys2Proof.Machine
end

section
/-! PROOFS about control transfer (spec 40_flow.md): the cycle that runs the decoded instruction (R120), jumps (R123, R129),
call and return (R121, R124), the register skips (R125 to R128) and `SYS` (R122). -/

namespace Sys2Proof.Machine

/-! ### Call and return, by the depth they meet -/

/-- `CALL` below depth 16 (R124). -/
theorem exec_call_of_lt {s : State} (h : s.depth.val < 16) (nnn : BitVec 12) :
    exec (.call nnn) s =
      .next ((s.setStack (s.stack.set s.depth.val s.pc) ⟨s.depth.val + 1, by omega⟩).setPc (zextNnn nnn)) := by
  rcases execCall_cases nnn s with ⟨hfull, -⟩ | ⟨_, e⟩
  · omega
  · exact e

/-- `CALL` at depth 16 (R124). -/
theorem exec_call_of_full {s : State} (h : s.depth.val = 16) (nnn : BitVec 12) :
    exec (.call nnn) s = .next (raiseHere .stackOverflow (.call nnn) none s) := by
  rcases execCall_cases nnn s with ⟨-, e⟩ | ⟨hlt, -⟩
  · exact e
  · omega

/-- `RET` above depth 0 (R121): `d` is both the slot it pops and the depth it leaves. -/
theorem exec_ret_of_succ {s : State} {d : Fin 16} (h : s.depth.val = d.val + 1) :
    exec .ret s = .next ((s.setStack s.stack d.castSucc).setPc s.stack[d]) := by
  have hd : s.depth.val - 1 = d.val := by omega
  rcases execRet_cases s with ⟨hzero, -⟩ | ⟨_, e⟩
  · omega
  · simp only [hd] at e
    exact e

/-- `RET` at depth 0 (R121). -/
theorem exec_ret_of_zero {s : State} (h : s.depth.val = 0) :
    exec .ret s = .next (raiseHere .stackUnderflow .ret none s) := by
  rcases execRet_cases s with ⟨-, e⟩ | ⟨hpos, -⟩
  · exact e
  · omega

/-- Settles O15: `exec_call_of_lt` is the push and the jump, `exec_call_of_full` the fault. -/
theorem callPushesThePcAndJumps : Obligations.CallPushesThePcAndJumps := by
  refine fun nnn s => ⟨fun h => ⟨_, exec_call_of_lt h nnn, toNat_zextNnn nnn, rfl, fun k => ?slot, rfl⟩,
    fun h => exec_call_of_full h nnn⟩
  case slot => simp only [State.setPc_stack, State.setStack_stack, Fin.getElem_fin, Vector.getElem_set, eq_comm]

/-- Settles O16: `exec_ret_of_succ` is the pop, `exec_ret_of_zero` the fault, whose word `encode .ret` is 0x00EE. -/
theorem returnPopsThePc : Obligations.ReturnPopsThePc :=
  fun _ => ⟨fun _ h => ⟨_, exec_ret_of_succ h, rfl, rfl, rfl⟩, fun h => exec_ret_of_zero h⟩

/-- Settles O17: `RET` finds the depth `CALL` raised, so it pops the slot `CALL` pushed `pc` into. -/
theorem returnUndoesCall : Obligations.ReturnUndoesCall := by
  intro nnn s h
  refine ⟨_, _, exec_call_of_lt h nnn, exec_ret_of_succ (d := ⟨s.depth.val, h⟩) rfl, ?same, fun k hk => ?slot⟩
  case same =>
    have hpopped : (s.stack.set s.depth.val s.pc)[s.depth.val] = s.pc := Vector.getElem_set_self h
    simp only [State.setPc_stack, State.setStack_stack, Fin.getElem_fin, hpopped]
    rfl
  case slot => exact Vector.getElem_set_ne h k.isLt hk.symm

/-! ### Jumps, skips and `SYS` -/

/-- The target of `Bnnn` (R129): the sum of 12 and 8 bits needs no reduction modulo 65536. -/
theorem toNat_jpV0_target (nnn : BitVec 12) (v : Byte) : (zextNnn nnn + v.zext16).toNat = nnn.toNat + v.toNat := by
  have := nnn.isLt
  have := v.isLt
  rw [BitVec.toNat_add, toNat_zextNnn, Byte.toNat_zext16]
  omega

/-- Settles O14: both jumps are one write of `pc`, whose value `toNat_zextNnn` and `toNat_jpV0_target` give. -/
theorem jumpsReplaceThePc : Obligations.JumpsReplaceThePc :=
  fun nnn s => ⟨⟨_, rfl, toNat_zextNnn nnn, rfl⟩, ⟨_, rfl, toNat_jpV0_target nnn (s.reg 0), rfl⟩⟩

/-- A skip on equal bytes. -/
theorem State.skipIf_beq (s : State) (a b : Byte) : s.skipIf (a == b) = s.setPc (if a = b then s.pc + 2 else s.pc) := by
  simp only [State.skipIf_eq, beq_iff_eq]

/-- A skip on different bytes. -/
theorem State.skipIf_bne (s : State) (a b : Byte) : s.skipIf (a != b) = s.setPc (if a = b then s.pc else s.pc + 2) := by
  simp only [State.skipIf_eq, bne_iff_ne, ne_eq, ite_not]

/-- Settles O18: the two `SE` are `State.skipIf_beq`, the two `SNE` are `State.skipIf_bne`. -/
theorem skipsTestTheirCondition : Obligations.SkipsTestTheirCondition :=
  fun x y kk s => ⟨congrArg Host.Outcome.next (s.skipIf_beq (s.reg x) kk),
    congrArg Host.Outcome.next (s.skipIf_bne (s.reg x) kk),
    congrArg Host.Outcome.next (s.skipIf_beq (s.reg x) (s.reg y)),
    congrArg Host.Outcome.next (s.skipIf_bne (s.reg x) (s.reg y))⟩

/-- Settles O19: `SYS` is fault entry and nothing else, and fault entry changes the latch alone (`raiseHere_eq`). -/
theorem sysOnlyLatchesIllegalOpcode : Obligations.SysOnlyLatchesIllegalOpcode :=
  fun nnn s => congrArg Host.Outcome.next (raiseHere_eq .illegalOpcode (.sys nnn) none s)

/-! ### The cycle -/

/-- Where a `Cycle` is next, lined up or for want of anything lined up (log 6), a step is that `Cycle`. -/
theorem step_of_cycle_next {s : State} {rest : List Operation}
    (h : s.pending = .cycle :: rest ∨ (s.pending = [] ∧ rest = [])) : step s = cycle (s.setPending rest) := by
  rcases h with h | ⟨h, rfl⟩
  · exact (step_of_pending_cons h).trans (operate_cycle _)
  · have hs : s.setPending [] = s := by rw [State.setPending, ← h]
    rw [hs, step_of_pending_nil h]

/-- An enabled `Cycle` whose fetch lies inside memory decodes and executes the word at `pc` (R120). -/
theorem cycle_of_fetched {s : State} (hf : s.fault = none) (hpc : s.pc.toNat ≤ 0xFFE) :
    cycle s = decodeExecute (s.wordAt s.pc.toNat) s.pc (advance s) := by
  rcases cycle_cases s with ⟨r, hr, -⟩ | ⟨-, hout, -⟩ | ⟨-, -, e⟩
  · cases hf.symm.trans hr
  · omega
  · exact e

/-- A word that decodes to `i` executes `i`. -/
theorem decodeExecute_of_ok {op : Word} {i : Instr} (h : decodeWord op = .ok i) (a : Word) (s : State) :
    decodeExecute op a s = exec i s := by
  simp only [decodeExecute, h]

/-- Settles O11: the step is a `Cycle` (`step_of_cycle_next`), which fetches the word at `pc` (`cycle_of_fetched`) and executes
its instruction after the advance (`decodeExecute_of_ok`). -/
theorem stepRunsTheDecodedInstruction : Obligations.StepRunsTheDecodedInstruction := by
  intro s i rest hnext hf hpc hdec
  calc step s
      = cycle (s.setPending rest) := step_of_cycle_next hnext
    _ = decodeExecute (s.wordAt s.pc.toNat) s.pc (advance (s.setPending rest)) :=
        cycle_of_fetched (s := s.setPending rest) hf hpc
    _ = exec i (advance (s.setPending rest)) := decodeExecute_of_ok hdec _ _

end Sys2Proof.Machine
end

section
/-! PROOFS about arithmetic and logic (spec 41_alu.md): loads and logic (R140 to R145), the flag instructions (R146 to R150) with
the order of their two writes (R152), the random byte (R151), and the frame of the whole state for every instruction
(10_state.md R20). -/

namespace Sys2Proof.Machine

/-! ### Flags and results as numbers -/

theorem toNat_flagByte (b : Bool) : (flagByte b).toNat = if b then 1 else 0 := by
  cases b <;> rfl

/-- The carry (R146). -/
theorem toNat_flagByte_carryOut (a b : Byte) :
    (flagByte (carryOut a b)).toNat = if 255 < a.toNat + b.toNat then 1 else 0 := by
  simp only [toNat_flagByte, carryOut, decide_eq_true_eq]

/-- NOT borrow (R147, R149). -/
theorem toNat_flagByte_noBorrow (minuend subtrahend : Byte) :
    (flagByte (noBorrow minuend subtrahend)).toNat = if subtrahend.toNat ≤ minuend.toNat then 1 else 0 := by
  simp only [toNat_flagByte, noBorrow, decide_eq_true_eq]

/-- The difference modulo 256 (R153): 256 is added where the minuend is the smaller. -/
theorem toNat_sub_byte (a b : Byte) :
    (a - b).toNat = if b.toNat ≤ a.toNat then a.toNat - b.toNat else a.toNat + 256 - b.toNat := by
  split <;> bv_omega

/-- A bit as a flag is the bit as a number. -/
theorem toNat_flagByte_bit {n : Nat} (hn : n < 2) : (flagByte (decide (n = 1))).toNat = n := by
  obtain rfl | rfl : n = 0 ∨ n = 1 := by omega
  · rfl
  · rfl

/-- The bit a right shift shifts out (R148). -/
theorem toNat_flagByte_lowBit (v : Byte) : (flagByte (lowBit v)).toNat = v.toNat % 2 := by
  rw [lowBit, BitVec.getLsbD, Nat.testBit_zero, toNat_flagByte_bit (Nat.mod_lt _ Nat.two_pos)]

/-- The bit a left shift shifts out (R150). -/
theorem toNat_flagByte_highBit (v : Byte) : (flagByte (highBit v)).toNat = v.toNat / 128 := by
  have hlt : v.toNat / 128 < 2 := by have := v.isLt; omega
  rw [highBit, BitVec.getLsbD, Nat.testBit_eq_decide_div_mod_eq, Nat.mod_eq_of_lt hlt, toNat_flagByte_bit hlt]

/-- One place to the right (R148). -/
theorem toNat_shiftRight_one (v : Byte) : (v >>> 1).toNat = v.toNat / 2 := by
  rw [BitVec.toNat_ushiftRight, Nat.shiftRight_one]

/-- One place to the left (R150). -/
theorem toNat_shiftLeft_one (v : Byte) : (v <<< 1).toNat = 2 * v.toNat % 256 := by
  rw [BitVec.toNat_shiftLeft, Nat.shiftLeft_eq, Nat.mul_comm]

/-! ### What an outcome says that is a write of registers -/

section
variable {o : Result} {s : State} {x : Reg} {v result : Byte} {flag : Bool} {n r f : Nat}

/-- One register is written, with the value `n`. -/
theorem next_setReg_spec (ho : o = .next (s.setReg x v)) (hv : v.toNat = n) :
    ∃ t, o = .next t ∧ (t.reg x).toNat = n ∧ (∀ z, z ≠ x → t.reg z = s.reg z) ∧ t = { s with V := t.V } := by
  refine ⟨_, ho, ?_, fun z hz => ?_, rfl⟩
  · rw [State.setReg_reg, if_pos rfl, hv]
  · rw [State.setReg_reg, if_neg hz]

/-- The result `r` is written, then the flag `f`, which survives where both go to `VF` (R152). -/
theorem next_writeResultThenFlag_spec (ho : o = .next (writeResultThenFlag x result flag s)) (hr : result.toNat = r)
    (hf : (flagByte flag).toNat = f) :
    ∃ t, o = .next t ∧ (x ≠ vf → (t.reg x).toNat = r) ∧ (t.reg vf).toNat = f ∧
      (∀ z, z ≠ x → z ≠ vf → t.reg z = s.reg z) ∧ t = { s with V := t.V } := by
  refine ⟨_, ho, fun hx => ?_, ?_, fun z hzx hzf => ?_, writeResultThenFlag_frame x result flag s⟩
  · rw [writeResultThenFlag_reg, if_neg hx, if_pos rfl, hr]
  · rw [writeResultThenFlag_reg, if_pos rfl, hf]
  · rw [writeResultThenFlag_reg, if_neg hzf, if_neg hzx]

/-- The result `r` and the flag `f` are written in the order of the setting, which decides where both go to `VF` (R152). -/
theorem next_writeShift_spec (ho : o = .next (writeShift x result flag s)) (hr : result.toNat = r)
    (hf : (flagByte flag).toNat = f) :
    ∃ t, o = .next t ∧ (x ≠ vf → (t.reg x).toNat = r ∧ (t.reg vf).toNat = f) ∧
      (x = vf → (t.reg vf).toNat = if s.config.vfDestOrder = .tableOrder then r else f) ∧
      (∀ z, z ≠ x → z ≠ vf → t.reg z = s.reg z) ∧ t = { s with V := t.V } := by
  refine ⟨_, ho, fun hx => ⟨?_, ?_⟩, fun hx => ?_, fun z hzx hzf => ?_, writeShift_frame x result flag s⟩
  · rw [writeShift_reg, if_neg hx, if_pos rfl, hr]
  · rw [writeShift_reg, if_pos rfl, if_neg (fun h => hx h.1), hf]
  · simp only [writeShift_reg, if_pos, hx, true_and, apply_ite BitVec.toNat, hr, hf]
  · rw [writeShift_reg, if_neg hzf, if_neg hzx]

end

/-! ### The flag instructions -/

/-- Settles O22: the sum, then the carry, by `next_writeResultThenFlag_spec`. -/
theorem addWritesSumThenCarry : Obligations.AddWritesSumThenCarry :=
  fun x y s => next_writeResultThenFlag_spec (o := exec (.addVxVy x y) s) rfl (BitVec.toNat_add _ _)
    (toNat_flagByte_carryOut _ _)

/-- Settles O23: the difference (`toNat_sub_byte`), then NOT borrow, by `next_writeResultThenFlag_spec`. -/
theorem subtractsWriteDifferenceThenNoBorrow : Obligations.SubtractsWriteDifferenceThenNoBorrow := by
  intro x y s i minuend subtrahend h
  simp only [List.mem_cons, List.not_mem_nil, or_false, Prod.mk.injEq] at h
  obtain ⟨rfl, rfl, rfl⟩ | ⟨rfl, rfl, rfl⟩ := h
  · exact next_writeResultThenFlag_spec rfl (toNat_sub_byte _ _) (toNat_flagByte_noBorrow _ _)
  · exact next_writeResultThenFlag_spec rfl (toNat_sub_byte _ _) (toNat_flagByte_noBorrow _ _)

/-- Settles O24: both shifts write by `writeShift`, what `next_writeShift_spec` says of it. -/
theorem shiftsMoveOnePlace : Obligations.ShiftsMoveOnePlace := by
  intro x y s i result flag h
  simp only [List.mem_cons, List.not_mem_nil, or_false, Prod.mk.injEq] at h
  obtain ⟨rfl, rfl, rfl⟩ | ⟨rfl, rfl, rfl⟩ := h
  · exact next_writeShift_spec rfl (toNat_shiftRight_one _) (toNat_flagByte_lowBit _)
  · exact next_writeShift_spec rfl (toNat_shiftLeft_one _) (toNat_flagByte_highBit _)

/-! ### The instructions that write one register -/

/-- Settles O21: each is one `State.setReg`, with the value as a number by the library's lemma on its operator. -/
theorem loadsAndLogicWriteTheirDestination : Obligations.LoadsAndLogicWriteTheirDestination := by
  intro x y kk s i v h
  simp only [List.mem_cons, List.not_mem_nil, or_false, Prod.mk.injEq] at h
  obtain ⟨rfl, rfl⟩ | ⟨rfl, rfl⟩ | ⟨rfl, rfl⟩ | ⟨rfl, rfl⟩ | ⟨rfl, rfl⟩ | ⟨rfl, rfl⟩ := h
  · exact next_setReg_spec rfl rfl
  · exact next_setReg_spec rfl (BitVec.toNat_add _ _)
  · exact next_setReg_spec rfl rfl
  · exact next_setReg_spec rfl (BitVec.toNat_or _ _)
  · exact next_setReg_spec rfl (BitVec.toNat_and _ _)
  · exact next_setReg_spec rfl (BitVec.toNat_xor _ _)

/-- A masked byte has no bit outside its mask. -/
theorem and_and_not_self (kk b : Byte) : kk &&& b &&& ~~~kk = 0 := by
  rw [BitVec.and_comm kk b, BitVec.and_assoc, BitVec.and_not_self]
  exact BitVec.and_zero

/-- Settles O27: `V[x]` is `kk &&& b` for the byte `b` drawn, of which the mask laws hold for every `b`. -/
theorem randomByteIsMasked : Obligations.RandomByteIsMasked := by
  intro x kk s
  have hx : ((s.setReg x (kk &&& Config.randByte s.draws)).setDraws (s.draws + 1)).reg x =
      kk &&& Config.randByte s.draws := by rw [State.setDraws_reg, State.setReg_reg, if_pos rfl]
  refine ⟨_, rfl, hx, ?outside, ?none, ?all, fun z hz => ?other, rfl⟩
  case outside => rw [hx, and_and_not_self]
  case none => rintro rfl; exact hx.trans BitVec.zero_and
  case all => rintro rfl; exact hx.trans BitVec.allOnes_and
  case other => rw [State.setDraws_reg, State.setReg_reg, if_neg hz]

/-! ### The frame of the whole state -/

/-- From `s` to `t` only that state is written which the table's column (10_state.md R20) allows the instruction `i` to write;
`V` and `pc` are left out. A field that a proof does not give is one that `t` keeps by definition. -/
structure WritesOnlyItsColumn (i : Instr) (s t : State) : Prop where
  mem : storedBytes i = 0 → t.mem = s.mem := by intros; rfl
  I : writesI i = false → t.I = s.I := by intros; rfl
  stack : (∀ nnn, i ≠ .call nnn) → t.stack = s.stack := by intros; rfl
  depth : (∀ nnn, i ≠ .call nnn) → i ≠ .ret → t.depth = s.depth := by intros; rfl
  fb : i ≠ .cls → (∀ x y n, i ≠ .drw x y n) → t.fb = s.fb := by intros; rfl
  DT : (∀ x, i ≠ .ldDTVx x) → t.DT = s.DT := by intros; rfl
  ST : (∀ x, i ≠ .ldSTVx x) → t.ST = s.ST := by intros; rfl
  key : t.key = s.key := by rfl
  config : t.config = s.config := by rfl
  session : t.session = s.session := by rfl
  pending : t.pending = s.pending := by rfl
  draws : (∀ x kk, i ≠ .rnd x kk) → t.draws = s.draws := by intros; rfl
  fault : faultOf i = none → t.fault = s.fault := by intros; rfl

/-- Every instruction may write the V registers and `pc`, as far as this frame goes. -/
theorem writesOnlyItsColumn_registers {i : Instr} {s : State} {r : Vector Byte 16} {v : Word} :
    WritesOnlyItsColumn i s { s with V := r, pc := v } where

/-- An instruction that can fault may write the latch. -/
theorem writesOnlyItsColumn_raiseHere {i : Instr} {s : State} {cause : FaultCause} {e : Option Nat}
    (hi : faultOf i ≠ none) : WritesOnlyItsColumn i s (raiseHere cause i e s) where
  fault := fun h => absurd h hi

/-- An instruction that stores bytes may write memory. -/
theorem writesOnlyItsColumn_store {i : Instr} {s : State} {base : Nat} {vs : List Byte} (hi : storedBytes i ≠ 0) :
    WritesOnlyItsColumn i s (s.store base vs) where
  mem := fun h => absurd h hi

/-- Every instruction writes only its column. Where it writes more than registers, memory or the latch, the case names the
fields and why it may write them. -/
theorem exec_writesOnlyItsColumn {i : Instr} {s t : State} (h : exec i s = .next t) : WritesOnlyItsColumn i s t := by
  cases i
  case cls => cases h; exact { fb := fun hi => absurd rfl hi }
  case sys => cases h; exact writesOnlyItsColumn_raiseHere nofun
  case rnd x kk => cases h; exact { draws := fun hi => absurd rfl (hi x kk) }
  case ldDTVx x => cases h; exact { DT := fun hi => absurd rfl (hi x) }
  case ldSTVx x => cases h; exact { ST := fun hi => absurd rfl (hi x) }
  case ldI | addIVx | ldFVx => cases h; exact { I := nofun }
  case ret =>
    rcases execRet_cases s with ⟨-, e⟩ | ⟨_, e⟩ <;> cases e.symm.trans h
    · exact writesOnlyItsColumn_raiseHere nofun
    · exact { depth := fun _ hi => absurd rfl hi }
  case call nnn =>
    rcases execCall_cases nnn s with ⟨-, e⟩ | ⟨_, e⟩ <;> cases e.symm.trans h
    · exact writesOnlyItsColumn_raiseHere nofun
    · exact { stack := fun hi => absurd rfl (hi nnn), depth := fun hi => absurd rfl (hi nnn) }
  case drw x y n =>
    rcases execDrw_cases x y n s with ⟨-, -, e⟩ | ⟨-, e⟩ <;> cases e.symm.trans h
    · exact writesOnlyItsColumn_raiseHere nofun
    · exact { fb := fun _ hi => absurd rfl (hi x y n) }
  case ldBVx x =>
    rcases execLdBVx_cases x s with ⟨-, e⟩ | ⟨-, e⟩ <;> cases e.symm.trans h
    · exact writesOnlyItsColumn_raiseHere nofun
    · exact writesOnlyItsColumn_store (Nat.succ_ne_zero _)
  case ldMemVx x =>
    rcases execLdMemVx_cases x s with ⟨-, e⟩ | ⟨-, e⟩ <;> cases e.symm.trans h
    · exact writesOnlyItsColumn_raiseHere nofun
    · exact writesOnlyItsColumn_store (Nat.succ_ne_zero _)
  case ldVxMem x =>
    rcases execLdVxMem_cases x s with ⟨-, e⟩ | ⟨-, e⟩ <;> cases e.symm.trans h
    · exact writesOnlyItsColumn_raiseHere nofun
    · exact writesOnlyItsColumn_registers
  case skp x =>
    rcases execSkp_cases x s with ⟨-, e⟩ | ⟨_, e⟩ <;> cases e.symm.trans h
    · exact writesOnlyItsColumn_raiseHere nofun
    · exact writesOnlyItsColumn_registers
  case sknp x =>
    rcases execSknp_cases x s with ⟨-, e⟩ | ⟨_, e⟩ <;> cases e.symm.trans h
    · exact writesOnlyItsColumn_raiseHere nofun
    · exact writesOnlyItsColumn_registers
  case ldVxK x =>
    rcases execLdVxK_cases x s with ⟨-, e⟩ | ⟨_, -, -, e⟩ <;> cases e.symm.trans h
    · exact writesOnlyItsColumn_registers
    · exact writesOnlyItsColumn_registers
  case seVxKk | sneVxKk | seVxVy | sneVxVy => cases h; rw [State.skipIf_eq]; exact writesOnlyItsColumn_registers
  case shrVx | shlVx => cases h; rw [writeShift_frame]; exact writesOnlyItsColumn_registers
  all_goals cases h; exact writesOnlyItsColumn_registers

/-- Settles O57: the statement is `exec_writesOnlyItsColumn`, field by field. -/
theorem stateIsWrittenOnlyAsTheTableSays : Obligations.StateIsWrittenOnlyAsTheTableSays := by
  intro i s t h
  have w := exec_writesOnlyItsColumn h
  exact ⟨w.mem, w.I, w.stack, w.depth, w.fb, w.DT, w.ST, w.key, w.config, w.session, w.pending, w.draws, w.fault⟩

end Sys2Proof.Machine
end

section
/-! PROOFS about the index register and data in memory (spec 42_index_memory.md): the writes of `I` (R170 to R172), the three
digits (R173), block store and block load (R174, R175) with their round trip, and the fault of an access that leaves memory
(R176). -/

namespace Sys2Proof.Machine

/-! ### The index register -/

/-- The literal product fits a word for every byte (log 20). -/
theorem toNat_glyphAddr (v : Byte) : (glyphAddr v).toNat = 5 * v.toNat := by
  have hv := v.isLt
  have hlt : 5 * v.zext16.toNat < 2 ^ 16 := by rw [Byte.toNat_zext16]; omega
  exact (BitVec.toNat_mul_of_lt hlt).trans (congrArg (5 * ·) (Byte.toNat_zext16 v))

/-- `I` is written, with the value `n`. -/
theorem next_setI_spec {o : Result} {s : State} {v : Word} {n : Nat} (ho : o = .next (s.setI v)) (hv : v.toNat = n) :
    ∃ t, o = .next t ∧ t.I.toNat = n ∧ t = { s with I := t.I } :=
  ⟨_, ho, hv, rfl⟩

/-- Settles O29: each of the three writes `I` alone (`next_setI_spec`), and its value as a number is the stated one. -/
theorem indexInstructionsWriteI : Obligations.IndexInstructionsWriteI := by
  intro x nnn s i v h
  simp only [List.mem_cons, List.not_mem_nil, or_false, Prod.mk.injEq] at h
  obtain ⟨rfl, rfl⟩ | ⟨rfl, rfl⟩ | ⟨rfl, rfl⟩ := h
  · exact next_setI_spec rfl (toNat_zextNnn nnn)
  · exact next_setI_spec rfl (by rw [BitVec.toNat_add, Byte.toNat_zext16])
  · exact next_setI_spec rfl (toNat_glyphAddr (s.reg x))

/-! ### The three decimal digits -/

/-- `Fx33` inside memory stores the three digits from `I` on. -/
theorem execLdBVx_of_le {x : Reg} {s : State} (h : s.I.toNat ≤ 0xFFD) :
    execLdBVx x s = .next (s.store s.I.toNat (decimalDigits (s.reg x))) := by
  rcases execLdBVx_cases x s with ⟨h', -⟩ | ⟨-, e⟩
  · omega
  · exact e

/-- No digit of a byte is cut off by the byte that holds it. -/
theorem toNat_decimalDigits (v : Byte) :
    (decimalDigits v)[0].toNat = v.toNat / 100 ∧ (decimalDigits v)[1].toNat = v.toNat / 10 % 10 ∧
      (decimalDigits v)[2].toNat = v.toNat % 10 := by
  have hv := v.isLt
  have toNat_ofNat_lt {n : Nat} (hn : n < 256) : (BitVec.ofNat 8 n).toNat = n :=
    (BitVec.toNat_ofNat n 8).trans (Nat.mod_eq_of_lt hn)
  exact ⟨toNat_ofNat_lt (by omega), toNat_ofNat_lt (by omega), toNat_ofNat_lt (by omega)⟩

/-- Settles O30: the three bytes are those of the run stored (`State.store_byte_inside`), the digits of
`toNat_decimalDigits`. -/
theorem bcdStoresThreeDigits : Obligations.BcdStoresThreeDigits := by
  intro x s hs hI
  have hr : s.I.toNat + (decimalDigits (s.reg x)).length ≤ Config.memSize := by
    simp only [decimalDigits_length, Config.memSize]; omega
  have stored (k : Nat) (hk : k < 3) := congrArg BitVec.toNat (State.store_byte_inside hs hr k hk)
  obtain ⟨hundreds, tens, ones⟩ := toNat_decimalDigits (s.reg x)
  exact ⟨_, execLdBVx_of_le hI, (stored 0 (by decide)).trans hundreds, (stored 1 (by decide)).trans tens,
    (stored 2 (by decide)).trans ones, fun a ha => State.store_byte_outside hs hr ha, rfl⟩

/-! ### Block store and block load -/

/-- Settles O31: inside the run stored the bytes are the registers (`State.store_regsUpTo_byte`), outside it every byte stays
(`State.store_byte_outside`). -/
theorem blockStoreCopiesRegisters : Obligations.BlockStoreCopiesRegisters := by
  intro x s hs hr
  have hlen := s.regsUpTo_length x
  refine ⟨_, execLdMemVx_of_le hr, fun k hk => State.store_regsUpTo_byte hs hr hk, fun a ha => ?_, rfl⟩
  exact State.store_byte_outside hs (by simp only [hlen, Config.memSize]; omega) (by omega)

/-- `Fx65` inside memory loads `V0..Vx` from `I` on. -/
theorem execLdVxMem_of_le {x : Reg} {s : State} (h : s.I.toNat + x.val ≤ 0xFFF) :
    execLdVxMem x s = .next (s.setV (s.loadedV x s.I.toNat)) := by
  rcases execLdVxMem_cases x s with ⟨h', -⟩ | ⟨-, e⟩
  · omega
  · exact e

/-- What a load leaves in a register: the byte up to `V[x]`, the register above it. -/
theorem State.setV_loadedV_reg (s : State) (x : Reg) (base : Nat) (k : Reg) :
    (s.setV (s.loadedV x base)).reg k = if k ≤ x then s.byte (base + k.val) else s.reg k :=
  s.loadedV_getElem x base k

/-- Settles O32: the two sides of `State.setV_loadedV_reg`. -/
theorem blockLoadCopiesMemory : Obligations.BlockLoadCopiesMemory := by
  intro x s hr
  refine ⟨_, execLdVxMem_of_le hr, fun k hk => ?_, fun k hk => ?_, rfl⟩
  · rw [State.setV_loadedV_reg, if_pos hk]
  · rw [State.setV_loadedV_reg, if_neg (not_le_of_gt hk)]

/-- Settles O33: the load reads the bytes that the store put there (`State.store_regsUpTo_byte`), and neither changes `I`. -/
theorem blockStoreThenLoadRestores : Obligations.BlockStoreThenLoadRestores := by
  intro x s r hs hr
  refine ⟨_, _, execLdMemVx_of_le hr, execLdVxMem_of_le hr, fun k => ?_, rfl, rfl⟩
  rw [State.setV_loadedV_reg]
  by_cases hk : k ≤ x
  · rw [if_pos hk, if_pos hk]
    exact State.store_regsUpTo_byte hs hr hk
  · rw [if_neg hk, if_neg hk, State.setV_reg]

/-! ### Data outside memory -/

/-- A range check of no bytes lets through. -/
theorem State.dataFault_zero (s : State) : s.dataFault 0 = none := by
  rw [State.dataFault_eq, if_pos (.inl rfl)]

/-- Where the range check of an instruction's data fails, the instruction is fault entry and nothing else: it makes the check
before any write (R176). -/
theorem exec_of_dataFault {i : Instr} {s : State} {e : Nat} (h : s.dataFault (touchedBytes i) = some e) :
    exec i s = .next (raiseHere .addressOutOfRange i (some e) s) := by
  cases i
  case ldBVx | ldMemVx | ldVxMem | drw =>
    simp only [touchedBytes] at h
    simp only [exec, execLdBVx, execLdMemVx, execLdVxMem, execDrw, h]
  all_goals cases h.symm.trans s.dataFault_zero

/-- Settles O34: the range check fails (`State.dataFault_cases`), so the instruction is fault entry (`exec_of_dataFault`), which
changes the latch alone (`raiseHere_eq`). -/
theorem dataOutsideMemoryLatchesAddressOutOfRange : Obligations.DataOutsideMemoryLatchesAddressOutOfRange := by
  intro i s hpos hout
  rcases s.dataFault_cases (touchedBytes i) with ⟨-, -, he⟩ | ⟨hin, -⟩
  · exact (exec_of_dataFault he).trans (congrArg Host.Outcome.next (raiseHere_eq _ _ _ _))
  · omega

end Sys2Proof.Machine
end

section
/-! PROOFS about the display (spec 43_display.md): clearing (R190), the pixels and the collision of a sprite draw (R191, R192), a
second draw at the same place (R191 (e), log 26), and reading a pixel (R193). -/

namespace Sys2Proof.Machine

/-! ### The pixels under the 1 bits of a sprite -/

theorem mem_rowDots {order : Config.SpriteBitOrder} {vx b : Byte} {cy dy : Fin 32} {dx : Fin 64} :
    (dx, dy) ∈ rowDots order vx cy b ↔ ∃ c < 8, spriteBit order b c = true ∧ spriteCol vx c = dx ∧ cy = dy := by
  simp only [rowDots, List.mem_filterMap, List.mem_range, Option.ite_none_right_eq_some, Option.some.injEq, Prod.mk.injEq]

/-- Eight columns in a row are eight different columns of the 64. -/
theorem nodup_rowDots (order : Config.SpriteBitOrder) (vx : Byte) (cy : Fin 32) (b : Byte) :
    (rowDots order vx cy b).Nodup := by
  refine List.pairwise_filterMap.mpr (List.pairwise_lt_range.imp_of_mem fun {c c'} hc hc' hlt d hd d' hd' => ?_)
  obtain ⟨-, hd⟩ := Option.ite_none_right_eq_some.mp hd
  obtain ⟨-, hd'⟩ := Option.ite_none_right_eq_some.mp hd'
  rintro rfl
  have hcol : (vx.toNat + c) % 64 = (vx.toNat + c') % 64 :=
    congrArg (fun d : Fin 64 × Fin 32 => d.1.val) (Option.some.inj (hd.trans hd'.symm))
  rw [List.mem_range] at hc hc'
  omega

theorem mem_spriteDots {order : Config.SpriteBitOrder} {vx vy : Byte} {r : Nat} {bs : List Byte} {dx : Fin 64} {dy : Fin 32} :
    (dx, dy) ∈ spriteDots order vx vy r bs ↔
      ∃ (k : Nat) (h : k < bs.length), (dx, dy) ∈ rowDots order vx (spriteRow vy (r + k)) bs[k] := by
  induction bs generalizing r with
  | nil => simp [spriteDots]
  | cons b bs ih =>
    rw [spriteDots, List.mem_append, ih]
    constructor
    · rintro (h | ⟨k, hk, h⟩)
      · exact ⟨0, Nat.zero_lt_succ _, h⟩
      · exact ⟨k + 1, Nat.succ_lt_succ hk, by rwa [Nat.add_right_comm] at h⟩
    · rintro ⟨_ | k, hk, h⟩
      · exact .inl h
      · exact .inr ⟨k, Nat.lt_of_succ_lt_succ hk, by rwa [Nat.add_right_comm]⟩

/-- Up to 32 rows are different rows of the display, so no pixel lies under two bits of a sprite. -/
theorem nodup_spriteDots (order : Config.SpriteBitOrder) (vx vy : Byte) (r : Nat) (bs : List Byte) (h : bs.length ≤ 32) :
    (spriteDots order vx vy r bs).Nodup := by
  induction bs generalizing r with
  | nil => exact List.nodup_nil
  | cons b bs ih =>
    rw [List.length_cons] at h
    refine (nodup_rowDots ..).append (ih (r + 1) (by omega)) ?_
    rintro ⟨dx, dy⟩ hrow hrest
    obtain ⟨k, hk, hlater⟩ := mem_spriteDots.mp hrest
    obtain ⟨-, -, -, -, hdy⟩ := mem_rowDots.mp hrow
    obtain ⟨-, -, -, -, hdy'⟩ := mem_rowDots.mp hlater
    have hrows : (vy.toNat + r) % 32 = (vy.toNat + (r + 1 + k)) % 32 := congrArg Fin.val (hdy.trans hdy'.symm)
    omega

/-! ### Flipping a list of different pixels -/

theorem Framebuffer.pixel_flip_of_ne {f : Framebuffer} {cx a : Fin 64} {cy b : Fin 32} (h : (a, b) ≠ (cx, cy)) :
    (f.flip cx cy).pixel a b = f.pixel a b := by
  rw [Framebuffer.pixel_flip, if_neg fun ⟨ha, hb⟩ => h (Prod.ext ha hb)]

/-- A pixel ends flipped exactly when it is listed. -/
theorem flipDots_pixel {ds : List (Fin 64 × Fin 32)} (hds : ds.Nodup) (f : Framebuffer) (hit : Bool) (cx : Fin 64)
    (cy : Fin 32) :
    (flipDots ds f hit).1.pixel cx cy = if (cx, cy) ∈ ds then !f.pixel cx cy else f.pixel cx cy := by
  induction ds generalizing f hit with
  | nil => simp only [flipDots, List.not_mem_nil, if_false]
  | cons d ds ih =>
    obtain ⟨dx, dy⟩ := d
    obtain ⟨hd, hds⟩ := List.nodup_cons.mp hds
    rw [flipDots, ih hds]
    by_cases h : (cx, cy) = (dx, dy)
    · obtain ⟨rfl, rfl⟩ := Prod.mk.inj h
      rw [if_neg hd, if_pos List.mem_cons_self, Framebuffer.pixel_flip, if_pos ⟨rfl, rfl⟩]
    · simp only [Framebuffer.pixel_flip_of_ne h, List.mem_cons, h, false_or]

/-- A hit is a listed pixel that was on before the first flip: no flip changes a pixel listed later. -/
theorem flipDots_hit {ds : List (Fin 64 × Fin 32)} (hds : ds.Nodup) (f : Framebuffer) (hit : Bool) :
    (flipDots ds f hit).2 = true ↔ hit = true ∨ ∃ d ∈ ds, f.pixel d.1 d.2 = true := by
  induction ds generalizing f hit with
  | nil => simp only [flipDots, List.not_mem_nil, false_and, exists_false, or_false]
  | cons d ds ih =>
    obtain ⟨hd, hds⟩ := List.nodup_cons.mp hds
    have hlater : ∀ e ∈ ds, (f.flip d.1 d.2).pixel e.1 e.2 = f.pixel e.1 e.2 :=
      fun e he => Framebuffer.pixel_flip_of_ne fun h => hd ((show e = d from h) ▸ he)
    rw [flipDots, ih hds, Bool.or_eq_true, or_assoc]
    simp only [List.mem_cons, exists_eq_or_imp]
    exact or_congr_right (or_congr_right (exists_congr fun e => and_congr_right fun he => by rw [hlater e he]))

/-! ### A draw -/

/-- The rows of the sprite that `Dxyn` draws are the `n` bytes from `I` on. -/
theorem mem_spriteDots_iff_spriteCovers {x y : Reg} {n : Fin 16} {s : State} {cx : Fin 64} {cy : Fin 32} :
    (cx, cy) ∈ spriteDots s.config.spriteBitOrder (s.reg x) (s.reg y) 0 (s.load (s.ea 0) n.val) ↔
      spriteCovers s x y n cx cy := by
  simp only [mem_spriteDots, mem_rowDots, State.load_getElem, State.load_length, State.ea_zero, Nat.zero_add, exists_prop,
    spriteCol, spriteRow, Fin.ext_iff]

theorem nodup_drawnDots (x y : Reg) (n : Fin 16) (s : State) :
    (spriteDots s.config.spriteBitOrder (s.reg x) (s.reg y) 0 (s.load (s.ea 0) n.val)).Nodup :=
  nodup_spriteDots _ _ _ _ _ (by rw [State.load_length]; omega)

theorem drawn_pixel (x y : Reg) (n : Fin 16) (s : State) (cx : Fin 64) (cy : Fin 32) :
    (drawn x y n s).1.pixel cx cy = if spriteCovers s x y n cx cy then !s.fb.pixel cx cy else s.fb.pixel cx cy := by
  simp only [drawn, flipDots_pixel (nodup_drawnDots x y n s), mem_spriteDots_iff_spriteCovers]

theorem drawn_hit_iff (x y : Reg) (n : Fin 16) (s : State) :
    (drawn x y n s).2 = true ↔ ∃ cx cy, spriteCovers s x y n cx cy ∧ s.fb.pixel cx cy = true := by
  simp only [drawn, flipDots_hit (nodup_drawnDots x y n s), Prod.exists, mem_spriteDots_iff_spriteCovers,
    Bool.false_eq_true, false_or]

/-- `Dxyn` with its sprite inside memory, or with no rows, draws. -/
theorem execDrw_of_le {x y : Reg} {n : Fin 16} {s : State} (h : n.val = 0 ∨ s.I.toNat + (n.val - 1) ≤ 0xFFF) :
    execDrw x y n s = .next ((s.setFb (drawn x y n s).1).setReg vf (flagByte (drawn x y n s).2)) := by
  rcases execDrw_cases x y n s with ⟨h0, h', -⟩ | ⟨-, e⟩
  · omega
  · exact e

/-- Settles O40: the sprite's pixels are flipped once each (`drawn_pixel`), and the flag, written last, says whether one of them
was on (`drawn_hit_iff`). -/
theorem drawXorsTheSprite : Obligations.DrawXorsTheSprite := by
  intro x y n s h
  refine ⟨_, execDrw_of_le h, fun cx cy => ⟨fun hcov => ?on, fun hcov => ?off⟩, fun hlit => ?hit, fun hdark => ?miss,
    fun z hz => ?other, rfl⟩
  case on => exact (drawn_pixel x y n s cx cy).trans (if_pos hcov)
  case off => exact (drawn_pixel x y n s cx cy).trans (if_neg hcov)
  case hit => rw [State.setReg_reg, if_pos rfl, (drawn_hit_iff x y n s).mpr hlit, flagByte_true]
  case miss =>
    have hmiss : (drawn x y n s).2 = false := by
      rw [← Bool.not_eq_true, drawn_hit_iff]
      rintro ⟨cx, cy, hcov, hlit⟩
      exact Bool.false_ne_true ((hdark cx cy hcov).symm.trans hlit)
    rw [State.setReg_reg, if_pos rfl, hmiss, flagByte_false]
  case other => rw [State.setReg_reg, if_neg hz, State.setFb_reg]

/-! ### A second draw at the same place -/

/-- What a sprite covers does not depend on the framebuffer, nor on a register that is no operand. -/
theorem spriteCovers_congr {x y : Reg} {s t : State} (ht : t = { s with fb := t.fb, V := t.V }) (hx : t.reg x = s.reg x)
    (hy : t.reg y = s.reg y) (n : Fin 16) (cx : Fin 64) (cy : Fin 32) :
    spriteCovers t x y n cx cy ↔ spriteCovers s x y n cx cy := by
  have hmem : t.mem = s.mem := by rw [ht]
  have hI : t.I = s.I := by rw [ht]
  have hconfig : t.config = s.config := by rw [ht]
  simp only [spriteCovers, State.byte_congr hmem hconfig, hI, hconfig, hx, hy]

/-- Settles O41: both draws are the draw of O40, over the same pixels (`spriteCovers_congr`), so the second finds on what the
first found off. -/
theorem drawingTwiceRestoresTheDisplay : Obligations.DrawingTwiceRestoresTheDisplay := by
  intro x y n s hx hy h
  obtain ⟨t, hst, hpix, -, -, hreg, ht⟩ := drawXorsTheSprite x y n s h
  have hI : t.I = s.I := by rw [ht]
  obtain ⟨u, htu, hpix', hhit, hmiss, -, -⟩ := drawXorsTheSprite x y n t (by rwa [hI])
  have hcov : ∀ cx cy, spriteCovers t x y n cx cy ↔ spriteCovers s x y n cx cy :=
    spriteCovers_congr ht (hreg x hx) (hreg y hy) n
  refine ⟨t, u, hst, htu, Framebuffer.ext_pixel fun cx cy => ?restored, fun ⟨cx, cy, hc, hoff⟩ => ?hit, fun hon => ?miss⟩
  case restored =>
    by_cases hc : spriteCovers s x y n cx cy
    · rw [(hpix' cx cy).1 ((hcov cx cy).mpr hc), (hpix cx cy).1 hc, Bool.not_not]
    · rw [(hpix' cx cy).2 (mt (hcov cx cy).mp hc), (hpix cx cy).2 hc]
  case hit => exact hhit ⟨cx, cy, (hcov cx cy).mpr hc, by rw [(hpix cx cy).1 hc, hoff, Bool.not_false]⟩
  case miss =>
    refine hmiss fun cx cy hc => ?_
    have hc := (hcov cx cy).mp hc
    rw [(hpix cx cy).1 hc, hon cx cy hc, Bool.not_true]

/-- The display with every pixel on. -/
def Framebuffer.allOn : Framebuffer := Vector.replicate 64 (Vector.replicate 32 true)

/-- Refutes O42: right after reset but for a display with every pixel on, `D001` draws the first row of glyph 0. The first draw
turns four pixels off, the second turns them on again and leaves `VF` at 0. -/
theorem not_secondDrawHitsWheneverTheSpriteHasABit : ¬ Obligations.SecondDrawHitsWheneverTheSpriteHasABit := by
  intro h
  have hvf : (0x00 : Byte) = 0x01 :=
    h 0 0 1 (State.reset.setFb Framebuffer.allOn) _ _ (by decide) (by decide) rfl rfl rfl ⟨0, 0, by decide⟩
  exact absurd hvf (by decide)

/-! ### Clearing and reading the display -/

/-- Settles O39: the framebuffer alone is written, with the clear one (`Framebuffer.pixel_clear`). -/
theorem clearTurnsEveryPixelOff : Obligations.ClearTurnsEveryPixelOff :=
  fun _ => ⟨_, rfl, Framebuffer.pixel_clear, rfl⟩

/-- Settles O54: the two branches of the range check. -/
theorem pixelAtAnswersThePixel : Obligations.PixelAtAnswersThePixel :=
  fun _ => ⟨fun cx cy => dif_pos ⟨cx.isLt, cy.isLt⟩, fun _ _ h => dif_neg (by omega)⟩

end Sys2Proof.Machine
end

section
/-! PROOFS about keys and timers (spec 44_keys_timers.md): the key skips (R210, R211), the wait for a key (R213) as an
instruction and as a step, and the timer transfers (R212, R214, R215). -/

namespace Sys2Proof.Machine

/-! ### The key skips, by the value they read -/

section
variable {x : Reg} {s : State}

/-- `SKP` on a key code (R210). -/
theorem exec_skp_of_keyCode {k : Fin 16} (h : (s.reg x).toNat = k.val) :
    exec (.skp x) s = .next (s.setPc (if s.key[k] = true then s.pc + 2 else s.pc)) := by
  rcases execSkp_cases x s with ⟨hgt, -⟩ | ⟨_, e⟩
  · omega
  · simp only [h] at e
    exact e

/-- `SKNP` on a key code (R211). -/
theorem exec_sknp_of_keyCode {k : Fin 16} (h : (s.reg x).toNat = k.val) :
    exec (.sknp x) s = .next (s.setPc (if s.key[k] = true then s.pc else s.pc + 2)) := by
  rcases execSknp_cases x s with ⟨hgt, -⟩ | ⟨_, e⟩
  · omega
  · simp only [h] at e
    exact e

/-- `SKP` on a value that is no key code (log 12). -/
theorem exec_skp_of_gt (h : 15 < (s.reg x).toNat) :
    exec (.skp x) s = .next (raiseHere .keyIndexOutOfRange (.skp x) (some (s.reg x).toNat) s) := by
  rcases execSkp_cases x s with ⟨-, e⟩ | ⟨hlt, -⟩
  · exact e
  · omega

/-- `SKNP` on a value that is no key code (log 12). -/
theorem exec_sknp_of_gt (h : 15 < (s.reg x).toNat) :
    exec (.sknp x) s = .next (raiseHere .keyIndexOutOfRange (.sknp x) (some (s.reg x).toNat) s) := by
  rcases execSknp_cases x s with ⟨-, e⟩ | ⟨hlt, -⟩
  · exact e
  · omega

end

/-- Settles O43: on a key code `exec_skp_of_keyCode` and `exec_sknp_of_keyCode`, above it `exec_skp_of_gt` and
`exec_sknp_of_gt`, whose fault entry changes the latch alone (`raiseHere_eq`). -/
theorem keySkipsTestTheLatch : Obligations.KeySkipsTestTheLatch :=
  fun _ _ => ⟨fun _ h => ⟨exec_skp_of_keyCode h, exec_sknp_of_keyCode h⟩,
    fun h => ⟨exec_skp_of_gt h, exec_sknp_of_gt h⟩⟩

/-! ### The wait for a key -/

/-- Only one key is the least pressed one. -/
theorem leastPressed_unique {key : Vector Bool 16} {j k : Fin 16} (hj : key[j] = true)
    (hjmin : ∀ i : Fin 16, i < j → key[i] = false) (hk : key[k] = true) (hkmin : ∀ i : Fin 16, i < k → key[i] = false) :
    j = k := by
  rcases lt_trichotomy j k with hlt | heq | hgt
  · exact absurd hj (Bool.eq_false_iff.mp (hkmin j hlt))
  · exact heq
  · exact absurd hk (Bool.eq_false_iff.mp (hjmin k hgt))

/-- `Fx0A` with no key pressed (R213). -/
theorem exec_ldVxK_of_none {s : State} (h : ∀ k : Fin 16, s.key[k] = false) (x : Reg) :
    exec (.ldVxK x) s = .next (s.setPc (s.pc - 2)) := by
  rcases execLdVxK_cases x s with ⟨-, e⟩ | ⟨k, hk, -, -⟩
  · exact e
  · exact absurd hk (Bool.eq_false_iff.mp (h k))

/-- `Fx0A` with `k` the least pressed key (R213). -/
theorem exec_ldVxK_of_least {s : State} {k : Fin 16} (hk : s.key[k] = true)
    (hmin : ∀ j : Fin 16, j < k → s.key[j] = false) (x : Reg) :
    exec (.ldVxK x) s = .next (s.setReg x (BitVec.ofNat 8 k.val)) := by
  rcases execLdVxK_cases x s with ⟨hnone, -⟩ | ⟨j, hj, hjmin, e⟩
  · exact absurd hk (Bool.eq_false_iff.mp (hnone k))
  · rwa [leastPressed_unique hj hjmin hk hmin] at e

/-- A key code fits the register it is loaded into. -/
theorem toNat_ofNat_keyCode (k : Fin 16) : (BitVec.ofNat 8 k.val).toNat = k.val := by
  rw [BitVec.toNat_ofNat]
  omega

/-- Settles O44: `exec_ldVxK_of_none` waits, and `exec_ldVxK_of_least` is one write of a register (`next_setReg_spec`). -/
theorem keyWaitTakesTheLeastPressedKey : Obligations.KeyWaitTakesTheLeastPressedKey :=
  fun x _ => ⟨fun hnone => exec_ldVxK_of_none hnone x,
    fun k hk hmin => next_setReg_spec (exec_ldVxK_of_least hk hmin x) (toNat_ofNat_keyCode k)⟩

/-- Going back undoes the advance, but for the session (log 7). -/
theorem advance_stepBack (s : State) : (advance s).setPc ((advance s).pc - 2) = s.setSession .running := by
  have hpc : s.pc + 2 - 2 = s.pc := BitVec.add_sub_cancel s.pc 2
  simp only [advance, State.setSession_pc, State.setPc_pc, hpc]
  rfl

/-- Settles O45: the step is a `Cycle` that executes `Fx0A` after the advance, and with no key pressed `Fx0A` takes the advance
back (`advance_stepBack`). -/
theorem waitingForAKeyIsAStutter : Obligations.WaitingForAKeyIsAStutter := by
  intro x s hpending hf hpc hword hnone
  have hdec : decodeWord (s.wordAt s.pc.toNat) = .ok (.ldVxK x) :=
    hword ▸ decodeOfEncodeIsTheInstruction (.ldVxK x) rfl
  calc step s
      = cycle s := step_of_pending_nil hpending
    _ = decodeExecute (s.wordAt s.pc.toNat) s.pc (advance s) := cycle_of_fetched hf hpc
    _ = exec (.ldVxK x) (advance s) := decodeExecute_of_ok hdec _ _
    _ = .next ((advance s).setPc ((advance s).pc - 2)) := exec_ldVxK_of_none (s := advance s) hnone x
    _ = .next (s.setSession .running) := congrArg _ (advance_stepBack s)

/-! ### The timers -/

/-- `Fx07` writes one register, with the delay timer (R212). -/
theorem exec_ldVxDT (x : Reg) (s : State) : exec (.ldVxDT x) s = .next (s.setReg x s.DT) := rfl

/-- `Fx15` writes the delay timer alone (R214). -/
theorem exec_ldDTVx (x : Reg) (s : State) : exec (.ldDTVx x) s = .next (s.setDT (s.reg x)) := rfl

/-- `Fx18` writes the sound timer alone (R215). -/
theorem exec_ldSTVx (x : Reg) (s : State) : exec (.ldSTVx x) s = .next (s.setST (s.reg x)) := rfl

/-- Settles O46: each is one write, `exec_ldVxDT` of a register, `exec_ldDTVx` and `exec_ldSTVx` of a timer. -/
theorem timerInstructionsTransfer : Obligations.TimerInstructionsTransfer := by
  refine fun x s => ⟨⟨_, exec_ldVxDT x s, ?written, fun z hz => ?kept, rfl⟩, exec_ldDTVx x s, exec_ldSTVx x s⟩
  case written => rw [State.setReg_reg, if_pos rfl]
  case kept => rw [State.setReg_reg, if_neg hz]

end Sys2Proof.Machine
end

section
/-! PROOFS about the interface operations between cycles (spec 60_exceptions.md): the timer decrement (R244) and the moves of one
key (R245, R246). -/

namespace Sys2Proof.Machine

/-! ### The timers -/

/-- A timer counts down to the floor at 0, without wrapping (R244). -/
theorem toNat_countDown (t : Byte) : (countDown t).toNat = t.toNat - 1 := by
  unfold countDown
  split
  case isTrue hpos => exact BitVec.toNat_sub_of_le (BitVec.le_def.mpr hpos)
  case isFalse hzero => omega

@[simp] theorem tick_DT (s : State) : (tick s).DT = countDown s.DT := rfl

@[simp] theorem tick_ST (s : State) : (tick s).ST = countDown s.ST := rfl

/-- Settles O52: `tick` writes the two timers alone, each with its own count (`toNat_countDown`). -/
theorem tickCountsBothTimersDown : Obligations.TickCountsBothTimersDown := by
  refine fun s => ⟨?delay, ?sound, rfl⟩
  case delay => rw [tick_DT, toNat_countDown]
  case sound => rw [tick_ST, toNat_countDown]

/-! ### The keys -/

/-- A key after one key was set, released or not. -/
theorem State.setKey_getElem (s : State) (k : Fin 16) (b : Bool) (j : Fin 16) :
    (s.setKey k b).key[j] = if j = k then b else s.key[j] := by
  simp only [State.setKey_key, Fin.getElem_fin, Vector.getElem_set, Fin.ext_iff, eq_comm]

/-- What an accepted move of key `k` to `b` says: that key, the other keys, and the rest of the state. -/
theorem accepted_setKey_spec {a : Answer State} {s : State} {k : Fin 16} {b : Bool} (ha : a = .accepted (s.setKey k b)) :
    ∃ t, a = .accepted t ∧ t.key[k] = b ∧ (∀ j : Fin 16, j ≠ k → t.key[j] = s.key[j]) ∧ t = { s with key := t.key } := by
  refine ⟨_, ha, ?moved, fun j hj => ?kept, rfl⟩
  case moved => rw [State.setKey_getElem, if_pos rfl]
  case kept => rw [State.setKey_getElem, if_neg hj]

/-- `Press` of a key code sets the key, whatever it was (R245). -/
theorem press_keyCode (k : Fin 16) (s : State) : press k.val s = .accepted (s.setKey k true) :=
  dif_pos k.isLt

theorem press_of_gt {k : Nat} (h : 15 < k) (s : State) : press k s = .rejected .keyOutOfRange :=
  dif_neg (Nat.not_lt.mpr h)

/-- `Release` of a key code goes by the key's own latch bit (R246). -/
theorem release_keyCode (k : Fin 16) (s : State) :
    release k.val s = if s.key[k] then .accepted (s.setKey k false) else .rejected .releaseNotPressed :=
  dif_pos k.isLt

theorem release_of_gt {k : Nat} (h : 15 < k) (s : State) : release k s = .rejected .keyOutOfRange :=
  dif_neg (Nat.not_lt.mpr h)

theorem release_of_pressed {s : State} {k : Fin 16} (h : s.key[k] = true) :
    release k.val s = .accepted (s.setKey k false) := by
  rw [release_keyCode, if_pos h]

theorem release_of_not_pressed {s : State} {k : Fin 16} (h : s.key[k] = false) :
    release k.val s = .rejected .releaseNotPressed := by
  rw [release_keyCode, if_neg (Bool.eq_false_iff.mp h)]

/-- Settles O53: an accepted `Press` or `Release` is one `setKey` (`accepted_setKey_spec`); a released key and a code above 15 are
the rejections. -/
theorem pressAndReleaseMoveOneKey : Obligations.PressAndReleaseMoveOneKey :=
  fun s => ⟨fun k => accepted_setKey_spec (press_keyCode k s),
    fun _ hpressed => accepted_setKey_spec (release_of_pressed hpressed),
    fun _ hreleased => release_of_not_pressed hreleased,
    fun _ h => ⟨press_of_gt h s, release_of_gt h s⟩⟩

end Sys2Proof.Machine
end

section
/-! PROOFS about `LoadROM` (spec 70_reset_and_hazards.md R271; the session is log 7). -/

namespace Sys2Proof.Machine

/-! ### The two answers of a load -/

/-- A ROM that fits is one run stored from `PROG_BASE` on. -/
theorem loadROM_of_le {bytes : List Byte} (h : bytes.length ≤ 0xE00) (s : State) :
    loadROM bytes s = .accepted ((s.store 0x200 bytes).setSession .loaded) := by
  rcases loadROM_cases bytes s with ⟨-, e⟩ | ⟨h', -⟩
  · exact e
  · omega

theorem loadROM_of_gt {bytes : List Byte} (h : 0xE00 < bytes.length) (s : State) :
    loadROM bytes s = .rejected .romTooLarge := by
  rcases loadROM_cases bytes s with ⟨h', -⟩ | ⟨-, e⟩
  · omega
  · exact e

/-- Settles O55: a ROM that fits is one run stored inside memory (`loadROM_of_le`), so its bytes, the bytes around it and the
canonical form are those of `State.store`. -/
theorem loadRomStoresVerbatim : Obligations.LoadRomStoresVerbatim := by
  refine fun bytes s hs => ⟨fun hlen => ?fits, fun hlen => loadROM_of_gt hlen s⟩
  case fits =>
    have hr : 0x200 + bytes.length ≤ Config.memSize := Nat.add_le_add_left hlen 0x200
    exact ⟨_, loadROM_of_le hlen s, State.store_memWf hs hr, fun k hk => State.store_byte_inside hs hr k hk,
      fun a ha => State.store_byte_outside hs hr ha, rfl⟩

end Sys2Proof.Machine
end

section
/-! PROOFS about what an instruction leaves alone: every instruction either raises the one fault it can raise, changing the latch
alone (spec 60_exceptions.md R237, R238), or keeps the latch, the advanced `pc` (10_state.md R26) and the registers that are no
destination (R21, R22); which of them leave a flag in `VF`; and that `VF_DEST_ORDER` is for the shifts of `VF` (41_alu.md R152). -/

namespace Sys2Proof.Machine

/-! ### An instruction that completes -/

/-- From `s` to `t` the instruction `i` ran without a fault: the latch is kept, and so are `pc` and the registers where `i` does
not write them. A field that a proof does not give is one that `t` keeps by definition. -/
structure Completes (i : Instr) (s t : State) : Prop where
  fault : t.fault = s.fault := by rfl
  pc : movesPc i = false → t.pc = s.pc := by intros; rfl
  reg : ∀ z, writesReg i z = false → t.reg z = s.reg z := by intros; rfl

/-- An instruction may go on to write a register that is its destination. -/
theorem Completes.setReg {i : Instr} {s t : State} {x : Reg} (h : Completes i s t) (hx : writesReg i x = true) (v : Byte) :
    Completes i s (t.setReg x v) where
  fault := h.fault
  pc := h.pc
  reg := fun z hz => by
    have hne : z ≠ x := by rintro rfl; exact Bool.false_ne_true (hz.symm.trans hx)
    rw [State.setReg_reg, if_neg hne]
    exact h.reg z hz

theorem completes_setReg {i : Instr} {s : State} {x : Reg} {v : Byte} (hx : writesReg i x = true) :
    Completes i s (s.setReg x v) :=
  Completes.setReg {} hx v

theorem completes_writeResultThenFlag {i : Instr} {s : State} {x : Reg} {result : Byte} {flag : Bool}
    (hx : writesReg i x = true) (hvf : writesReg i vf = true) : Completes i s (writeResultThenFlag x result flag s) :=
  (completes_setReg hx).setReg hvf _

theorem completes_writeShift {i : Instr} {s : State} {x : Reg} {result : Byte} {flag : Bool}
    (hx : writesReg i x = true) (hvf : writesReg i vf = true) : Completes i s (writeShift x result flag s) := by
  unfold writeShift
  cases s.config.vfDestOrder with
  | tableOrder => exact (completes_setReg hvf).setReg hx _
  | flagLast => exact (completes_setReg hx).setReg hvf _

theorem completes_loadedV (x : Reg) (base : Nat) (s : State) : Completes (.ldVxMem x) s (s.setV (s.loadedV x base)) where
  reg := fun z hz => by
    have hgt : ¬z ≤ x := of_decide_eq_false hz
    rw [State.setV_loadedV_reg, if_neg hgt]

/-- Everything an instruction can do to the latch, to `pc` and to the registers: raise its own fault and nothing else, or
complete. -/
theorem exec_raises_or_completes {i : Instr} {s t : State} (h : exec i s = .next t) :
    (∃ cause e, faultOf i = some cause ∧ t = raiseHere cause i e s) ∨ Completes i s t := by
  cases i
  case sys => cases h; exact .inl ⟨_, _, rfl, rfl⟩
  case ret =>
    rcases execRet_cases s with ⟨-, e⟩ | ⟨_, e⟩ <;> cases e.symm.trans h
    · exact .inl ⟨_, _, rfl, rfl⟩
    · exact .inr { pc := nofun }
  case call nnn =>
    rcases execCall_cases nnn s with ⟨-, e⟩ | ⟨_, e⟩ <;> cases e.symm.trans h
    · exact .inl ⟨_, _, rfl, rfl⟩
    · exact .inr { pc := nofun }
  case skp x =>
    rcases execSkp_cases x s with ⟨-, e⟩ | ⟨_, e⟩ <;> cases e.symm.trans h
    · exact .inl ⟨_, _, rfl, rfl⟩
    · exact .inr { pc := nofun }
  case sknp x =>
    rcases execSknp_cases x s with ⟨-, e⟩ | ⟨_, e⟩ <;> cases e.symm.trans h
    · exact .inl ⟨_, _, rfl, rfl⟩
    · exact .inr { pc := nofun }
  case drw x y n =>
    rcases execDrw_cases x y n s with ⟨-, -, e⟩ | ⟨-, e⟩ <;> cases e.symm.trans h
    · exact .inl ⟨_, _, rfl, rfl⟩
    · have hdrawn : Completes (.drw x y n) s (s.setFb (drawn x y n s).1) := {}
      exact .inr (hdrawn.setReg (decide_eq_true rfl) _)
  case ldBVx x =>
    rcases execLdBVx_cases x s with ⟨-, e⟩ | ⟨-, e⟩ <;> cases e.symm.trans h
    · exact .inl ⟨_, _, rfl, rfl⟩
    · exact .inr {}
  case ldMemVx x =>
    rcases execLdMemVx_cases x s with ⟨-, e⟩ | ⟨-, e⟩ <;> cases e.symm.trans h
    · exact .inl ⟨_, _, rfl, rfl⟩
    · exact .inr {}
  case ldVxMem x =>
    rcases execLdVxMem_cases x s with ⟨-, e⟩ | ⟨-, e⟩ <;> cases e.symm.trans h
    · exact .inl ⟨_, _, rfl, rfl⟩
    · exact .inr (completes_loadedV x _ s)
  case ldVxK x =>
    rcases execLdVxK_cases x s with ⟨-, e⟩ | ⟨_, -, -, e⟩ <;> cases e.symm.trans h
    · exact .inr { pc := nofun }
    · exact .inr (completes_setReg (decide_eq_true rfl))
  case jp | jpV0 => cases h; exact .inr { pc := nofun }
  case seVxKk | sneVxKk | seVxVy | sneVxVy => cases h; rw [State.skipIf_eq]; exact .inr { pc := nofun }
  case ldVxKk | addVxKk | ldVxVy | orVxVy | andVxVy | xorVxVy | ldVxDT =>
    cases h; exact .inr (completes_setReg (decide_eq_true rfl))
  case rnd x kk =>
    cases h
    have hdrawn : Completes (.rnd x kk) s (s.setDraws (s.draws + 1)) := {}
    exact .inr (hdrawn.setReg (decide_eq_true rfl) _)
  case addVxVy | subVxVy | subnVxVy =>
    cases h; exact .inr (completes_writeResultThenFlag (decide_eq_true (.inl rfl)) (decide_eq_true (.inr rfl)))
  case shrVx | shlVx =>
    cases h; exact .inr (completes_writeShift (decide_eq_true (.inl rfl)) (decide_eq_true (.inr rfl)))
  case cls | ldI | addIVx | ldFVx | ldDTVx | ldSTVx => cases h; exact .inr {}

/-- Settles O20: fault entry keeps `pc`, and an instruction that completes keeps the latch. -/
theorem otherInstructionsLeaveTheAdvancedPc : Obligations.OtherInstructionsLeaveTheAdvancedPc := by
  intro i s t h hi
  rcases exec_raises_or_completes h with ⟨cause, e, -, rfl⟩ | hc
  · rfl
  · exact hc.pc (hi.resolve_right (absurd hc.fault))

/-- Settles O58: fault entry keeps the registers, and `Completes.reg` is the rest. -/
theorem registersKeepOutsideDestinations : Obligations.RegistersKeepOutsideDestinations := by
  intro i s t z h hz
  rcases exec_raises_or_completes h with ⟨cause, e, -, rfl⟩ | hc
  · rfl
  · exact hc.reg z hz

/-- Settles O48: with no fault before, a latched record is the one that fault entry made. -/
theorem aFaultChangesOnlyTheLatch : Obligations.AFaultChangesOnlyTheLatch := by
  intro i s t r hs h ht
  rcases exec_raises_or_completes h with ⟨cause, e, hcause, rfl⟩ | hc
  · rw [raiseHere_eq, State.setFault_fault] at ht
    obtain rfl := Option.some.inj ht
    exact ⟨rfl, hcause, rfl, rfl⟩
  · cases (ht.symm.trans hc.fault).trans hs

/-! ### The flag in `VF` -/

theorem flagByte_eq_zero_or_one (b : Bool) : flagByte b = 0x00 ∨ flagByte b = 0x01 := by
  cases b
  · exact .inl rfl
  · exact .inr rfl

/-- A shift whose destination is not `VF` writes as the other flag instructions do, under both settings of `VF_DEST_ORDER`. -/
theorem writeShift_of_ne_vf {x : Reg} (hx : x ≠ vf) (result : Byte) (flag : Bool) (s : State) :
    writeShift x result flag s = writeResultThenFlag x result flag s := by
  unfold writeShift
  cases s.config.vfDestOrder with
  | tableOrder => exact State.setReg_comm s hx.symm _ _
  | flagLast => rfl

theorem writeResultThenFlag_vf (x : Reg) (result : Byte) (flag : Bool) (s : State) :
    (writeResultThenFlag x result flag s).reg vf = flagByte flag := by
  rw [writeResultThenFlag_reg, if_pos rfl]

/-- A flag instruction that does not fault and is no shift of `VF` writes its flag last. -/
theorem exec_leaves_flag {i : Instr} {s t : State} (hflag : writesFlag i = true) (hi : shiftsVf i = false)
    (h : exec i s = .next t) (ht : t.fault = none) : ∃ b, t.reg vf = flagByte b := by
  cases i
  case addVxVy | subVxVy | subnVxVy => cases h; exact ⟨_, writeResultThenFlag_vf _ _ _ s⟩
  case shrVx | shlVx =>
    cases h
    rw [writeShift_of_ne_vf (of_decide_eq_false hi)]
    exact ⟨_, writeResultThenFlag_vf _ _ _ s⟩
  case drw x y n =>
    rcases execDrw_cases x y n s with ⟨-, -, e⟩ | ⟨-, e⟩ <;> cases e.symm.trans h
    · cases ht
    · exact ⟨_, by rw [State.setReg_reg, if_pos rfl]⟩
  all_goals cases hflag

/-- Settles O28: `exec_leaves_flag` is the six flag instructions, the frame of the registers (O58) every other one. -/
theorem vfIsAFlagOfSixInstructions : Obligations.VfIsAFlagOfSixInstructions := by
  refine fun i s t h => ⟨fun hflag hi ht => ?flag, fun _ hvf => registersKeepOutsideDestinations i s t vf h hvf⟩
  case flag =>
    obtain ⟨b, hb⟩ := exec_leaves_flag hflag hi h ht
    rw [hb]
    exact flagByte_eq_zero_or_one b

/-! ### The setting of `VF_DEST_ORDER` -/

/-- The state under another `VF_DEST_ORDER`. -/
def State.withVfDestOrder (s : State) (order : Config.VfDestOrder) : State :=
  { s with config := { s.config with vfDestOrder := order } }

section
variable (s : State) (order : Config.VfDestOrder)

theorem State.withVfDestOrder_reg (z : Reg) : (s.withVfDestOrder order).reg z = s.reg z := rfl

theorem State.withVfDestOrder_pc : (s.withVfDestOrder order).pc = s.pc := rfl

theorem State.withVfDestOrder_key : (s.withVfDestOrder order).key = s.key := rfl

theorem State.skipIf_withVfDestOrder (c : Bool) :
    (s.withVfDestOrder order).skipIf c = (s.skipIf c).withVfDestOrder order := by
  cases c <;> rfl

theorem State.push?_withVfDestOrder (w : Word) :
    (s.withVfDestOrder order).push? w = (s.push? w).map (·.withVfDestOrder order) := by
  rw [State.push?, State.push?, apply_dite (Option.map _)]
  rfl

theorem State.pop?_withVfDestOrder :
    (s.withVfDestOrder order).pop? = s.pop?.map fun p => (p.1, p.2.withVfDestOrder order) := by
  rw [State.pop?, State.pop?, apply_dite (Option.map _)]
  rfl

theorem State.dataFault_withVfDestOrder (n : Nat) : (s.withVfDestOrder order).dataFault n = s.dataFault n := rfl

theorem writeShift_withVfDestOrder {x : Reg} (hx : x ≠ vf) (result : Byte) (flag : Bool) :
    writeShift x result flag (s.withVfDestOrder order) = (writeShift x result flag s).withVfDestOrder order := by
  rw [writeShift_of_ne_vf hx, writeShift_of_ne_vf hx]
  rfl

end

/-- An instruction that is no shift of `VF` does the same under another `VF_DEST_ORDER`. What branches does so on the stack's depth,
on a range check or on a key, none of which the setting enters. -/
theorem exec_withVfDestOrder {i : Instr} (hi : shiftsVf i = false) {s t : State} (order : Config.VfDestOrder)
    (h : exec i s = .next t) : exec i (s.withVfDestOrder order) = .next (t.withVfDestOrder order) := by
  cases i
  case ret =>
    revert h
    simp only [exec, execRet, State.pop?_withVfDestOrder]
    cases s.pop? <;> rintro ⟨⟩ <;> rfl
  case call nnn =>
    revert h
    simp only [exec, execCall, State.push?_withVfDestOrder, State.withVfDestOrder_pc]
    cases s.push? s.pc <;> rintro ⟨⟩ <;> rfl
  case drw | ldBVx | ldMemVx | ldVxMem =>
    revert h
    simp only [exec, execDrw, execLdBVx, execLdMemVx, execLdVxMem, State.dataFault_withVfDestOrder]
    split <;> rintro ⟨⟩ <;> rfl
  case skp | sknp =>
    revert h
    simp only [exec, execSkp, execSknp, State.withVfDestOrder_reg, State.withVfDestOrder_key, State.skipIf_withVfDestOrder]
    split <;> rintro ⟨⟩ <;> rfl
  case ldVxK x =>
    revert h
    simp only [exec, execLdVxK, State.withVfDestOrder_key]
    split <;> rintro ⟨⟩ <;> rfl
  case seVxKk | sneVxKk | seVxVy | sneVxVy =>
    cases h; exact congrArg Host.Outcome.next (State.skipIf_withVfDestOrder s order _)
  case shrVx | shlVx =>
    cases h; exact congrArg Host.Outcome.next (writeShift_withVfDestOrder s order (of_decide_eq_false hi) _ _)
  all_goals cases h; rfl

/-- Settles O26: the statement is `exec_withVfDestOrder`. -/
theorem vfDestOrderMattersOnlyToShiftsOfVf : Obligations.VfDestOrderMattersOnlyToShiftsOfVf :=
  fun _ _ _ order hi h => exec_withVfDestOrder hi order h

end Sys2Proof.Machine
end

section
/-! PROOFS about the cycle's faults (spec 60_exceptions.md R238, R239, 20_memory.md R65), the machine that has faulted (R240,
R253), and the machine at rest (70_reset_and_hazards.md R274). -/

namespace Sys2Proof.Machine

/-! ### The cycle that faults -/

/-- An enabled `Cycle` whose fetch leaves memory raises the fetch's fault (R239). -/
theorem cycle_of_fetch_outside {s : State} (hf : s.fault = none) (hpc : 0xFFE < s.pc.toNat) :
    cycle s =
      .next (raise .addressOutOfRange none s.pc (some (max s.pc.toNat 0x1000)) (s.setSession .running)) := by
  rcases cycle_cases s with ⟨r, hr, -⟩ | ⟨-, -, e⟩ | ⟨-, hin, -⟩
  · cases hf.symm.trans hr
  · exact e
  · omega

/-- A word that is no instruction raises `IllegalOpcode`. -/
theorem decodeExecute_of_error {op : Word} {r : DecodeReject} (h : decodeWord op = .error r) (a : Word) (s : State) :
    decodeExecute op a s = .next (raise .illegalOpcode (some op) a none s) := by
  simp only [decodeExecute, h]

/-- Settles O13: it is `cycle_of_fetch_outside`, whose address `max pc 0x1000` is 0x1000 at 0xFFF and `pc` above it. -/
theorem fetchOutsideMemoryLatchesAddressOutOfRange : Obligations.FetchOutsideMemoryLatchesAddressOutOfRange := by
  intro s hf hpc
  have haddr : max s.pc.toNat 0x1000 = if s.pc.toNat = 0xFFF then 0x1000 else s.pc.toNat := by
    split <;> omega
  rw [cycle_of_fetch_outside hf hpc, haddr]
  rfl

/-- Settles O12: the cycle decodes the word at `pc` after the advance (`cycle_of_fetched`), and the decoder rejects it
(`decodeExecute_of_error`). -/
theorem illegalWordLatchesIllegalOpcode : Obligations.IllegalWordLatchesIllegalOpcode := by
  rintro s hf hpc ⟨r, hr⟩
  exact (cycle_of_fetched hf hpc).trans (decodeExecute_of_error hr s.pc (advance s))

/-- Settles O49: the record is the fetch's, the decoder's, or the one of the instruction executed after the advance, which names
that instruction's word and `pc - 2` (O48). -/
theorem faultRecordNamesTheFetchedWord : Obligations.FaultRecordNamesTheFetchedWord := by
  intro s t r hs h ht
  rcases Nat.lt_or_ge 0xFFE s.pc.toNat with hout | hin
  · cases (cycle_of_fetch_outside hs hout).symm.trans h
    cases ht
    exact ⟨rfl, rfl, fun hin => absurd hin (Nat.not_le.mpr hout), fun _ => ⟨rfl, rfl⟩⟩
  · rw [cycle_of_fetched hs hin] at h
    suffices r.addr = s.pc ∧ r.op = some (s.wordAt s.pc.toNat) ∧ t = (advance s).setFault (some r) by
      obtain ⟨haddr, hop, rfl⟩ := this
      exact ⟨haddr, rfl, fun _ => ⟨hop, rfl⟩, fun hout => absurd hin (Nat.not_le.mpr hout)⟩
    rcases decodeExecute_cases (s.wordAt s.pc.toNat) s.pc (advance s) with ⟨_, -, e⟩ | ⟨i, hdec, e⟩
    · cases e.symm.trans h
      cases ht
      exact ⟨rfl, rfl, rfl⟩
    · obtain ⟨rfl, -, hop, haddr⟩ := aFaultChangesOnlyTheLatch i (advance s) t r hs (e.symm.trans h) ht
      obtain ⟨-, hword⟩ := encodeOfDecodeIsTheWord _ i hdec
      exact ⟨haddr.trans (BitVec.add_sub_cancel s.pc 2), hop.trans (congrArg some hword), rfl⟩

/-! ### The machine that has faulted -/

section
variable {s : State} {r : FaultRecord}

theorem cycle_of_fault (h : s.fault = some r) : cycle s = .fault (.engineStopped r) := by
  simp only [cycle, h]

theorem unlessFaulted_of_some (h : s.fault = some r) (t : State) : unlessFaulted s t = .refused .operationAfterFault := by
  simp only [unlessFaulted, h]

/-- A load after a fault is refused, as one after a fault or as one out of the boot order. -/
theorem bootLoad_of_fault (h : s.fault = some r) (bytes : List Byte) : ∃ c, bootLoad bytes s = .refused c := by
  by_cases hs : s.session = .constructed
  · exact ⟨.operationAfterFault, by simp only [bootLoad, hs, unlessFaulted_of_some h]⟩
  · exact ⟨_, bootLoad_of_not_constructed hs bytes⟩

/-- While a record is latched, no operation but `Reset` has a next state. -/
theorem operate_ne_next_of_fault (h : s.fault = some r) {op : Operation} (hop : op ≠ .reset) (t : State) :
    operate op s ≠ .next t := by
  have refused (u : State) : unlessFaulted s u ≠ .next t := by
    rw [unlessFaulted_of_some h]
    nofun
  cases op with
  | reset => exact absurd rfl hop
  | cycle =>
    rw [operate_cycle, cycle_of_fault h]
    nofun
  | loadROM bytes =>
    obtain ⟨c, hc⟩ := bootLoad_of_fault h bytes
    exact fun hnext => nomatch hc.symm.trans hnext
  | tick | press k | release k | pixelAt cx cy => exact refused _

end

/-- Settles O50: a step is a `Cycle` (`cycle_of_fault`) or the oldest operation (`operate_ne_next_of_fault`). -/
theorem aFaultedMachineTakesNoStep : Obligations.AFaultedMachineTakesNoStep := by
  refine fun s r hf => ⟨fun h => (step_of_pending_nil h).trans (cycle_of_fault hf), fun op rest h hop t => ?_⟩
  have hf' : (s.setPending rest).fault = some r := hf
  rw [step_of_pending_cons h]
  exact operate_ne_next_of_fault hf' hop t

/-! ### The machine at rest -/

/-- The target of a jump to an address inside memory is that address. -/
theorem zextNnn_setWidth {a : Word} (h : a.toNat ≤ 0xFFE) : zextNnn (a.setWidth 12) = a := by
  apply BitVec.eq_of_toNat_eq
  rw [toNat_zextNnn, BitVec.toNat_setWidth]
  omega

/-- At rest the word at `pc` is the jump to `pc`. -/
theorem State.AtRest.wordAt_pc {s : State} (hs : s.AtRest) : s.wordAt s.pc.toNat = encode (.jp (s.pc.setWidth 12)) := by
  obtain ⟨-, hpc, hword⟩ := hs
  apply BitVec.eq_of_toNat_eq
  rw [hword, encode, toNat_encNnn, BitVec.toNat_setWidth, Nat.mod_eq_of_lt (by omega)]
  rfl

/-- Settles O60: the cycle executes a jump after the advance, and the jump puts `pc` back to its own address. -/
theorem atRestACycleChangesNothing : Obligations.AtRestACycleChangesNothing := by
  intro s hs
  have hdec : decodeWord (s.wordAt s.pc.toNat) = .ok (.jp (s.pc.setWidth 12)) :=
    hs.wordAt_pc ▸ decodeOfEncodeIsTheInstruction (.jp (s.pc.setWidth 12)) rfl
  obtain ⟨hf, hpc, -⟩ := hs
  calc cycle s
      = decodeExecute (s.wordAt s.pc.toNat) s.pc (advance s) := cycle_of_fetched hf hpc
    _ = exec (.jp (s.pc.setWidth 12)) (advance s) := decodeExecute_of_ok hdec _ _
    _ = .next ((advance s).setPc (zextNnn (s.pc.setWidth 12))) := rfl
    _ = .next (s.setSession .running) := by rw [zextNnn_setWidth hpc]; rfl

end Sys2Proof.Machine
end

section
/-! PROOFS about the boot order (spec 70_reset_and_hazards.md R271, R272, R273; log 7). -/

namespace Sys2Proof.Machine

section
variable {s : State} {bytes : List Byte} {rest : List Operation}

/-- A `LoadROM` lined up in the boot order is a step, accepted or not. -/
theorem step_loadROM_of_constructed (hf : s.fault = none) (hs : s.session = .constructed)
    (hp : s.pending = .loadROM bytes :: rest) :
    step s = .next ((loadROM bytes (s.setPending rest)).stateOr (s.setPending rest)) :=
  (step_of_pending_cons hp).trans (operate_loadROM_of_constructed (s := s.setPending rest) hs hf bytes)

/-- One that fits stores the ROM from 0x200 on and is then the one load. -/
theorem step_loadROM_of_le (hf : s.fault = none) (hs : s.session = .constructed)
    (hp : s.pending = .loadROM bytes :: rest) (hlen : bytes.length ≤ 0xE00) :
    step s = .next (((s.setPending rest).store 0x200 bytes).setSession .loaded) := by
  rw [step_loadROM_of_constructed hf hs hp, loadROM_of_le hlen]
  rfl

/-- One that is too large only leaves the list. -/
theorem step_loadROM_of_gt (hf : s.fault = none) (hs : s.session = .constructed)
    (hp : s.pending = .loadROM bytes :: rest) (hlen : 0xE00 < bytes.length) : step s = .next (s.setPending rest) := by
  rw [step_loadROM_of_constructed hf hs hp, loadROM_of_gt hlen]
  rfl

end

/-- Settles O56: in the boot order a load is a step by its size (`step_loadROM_of_le`, `step_loadROM_of_gt`), which at reset stores
what `launch` stores; out of it `bootLoad` refuses. -/
theorem romIsLoadedOnceBeforeTheFirstCycle : Obligations.RomIsLoadedOnceBeforeTheFirstCycle := by
  refine ⟨fun s bytes rest hf hs hp => ⟨fun hlen => ?fits, fun hlen => ?tooLarge⟩, fun c bytes rest hlen => ?launch,
    fun s bytes rest hp hs => ?outOfOrder⟩
  case fits => exact ⟨_, loadROM_of_le hlen (s.setPending rest), rfl, step_loadROM_of_le hf hs hp hlen⟩
  case tooLarge => exact ⟨loadROM_of_gt hlen (s.setPending rest), step_loadROM_of_gt hf hs hp hlen⟩
  case launch =>
    exact ⟨_, loadROM_of_le hlen (resetUnder c),
      step_loadROM_of_le (s := (resetUnder c).setPending (.loadROM bytes :: rest)) rfl rfl rfl hlen⟩
  case outOfOrder =>
    exact (step_of_pending_cons hp).trans (bootLoad_of_not_constructed (s := s.setPending rest) hs bytes)

end Sys2Proof.Machine
end
